-- ==== Sys2Proof/Word.lean ====
section
/-! DEFINITION. The words of SOLBLS-FH: the byte, the 32-bit bus and command word, the 256-bit field register and the
number of a field register (spec/00_scope.md R8, R9, R10). Every value is unsigned; no rule sign-extends. -/

namespace Sys2Proof

/-- A byte, an integer in [0, 256) (R11). -/
abbrev Byte := BitVec 8

/-- A host-bus word and a command word, 32 bits (R8 `BUS_WIDTH`, R80). -/
abbrev Word := BitVec 32

/-- The contents of a field register, 256 bits, canonical or not (R8 `WORD`, R21). -/
abbrev FieldWord := BitVec 256

/-- The number of a field register, `F0` to `F15` (R8 `NREG`, R21). -/
abbrev Reg := Fin 16

end Sys2Proof
end

