-- ==== Sys2Proof/Config.lean ====
section
/-! DEFINITION. What is fixed for the hardware: the modulus and its derived constants (spec/00_scope.md R6, R7), the
implementation parameters (R8), the places of the byte buffers in the window (spec/20_memory.md R51), what a byte of
storage that nothing has written reads as, and the free value behind the entropy port (spec/40_field_arithmetic.md
R112). Nothing here is state and no access reads or writes it (spec/10_state.md R20). -/

namespace Sys2Proof

/-- The field modulus `p`, the 254-bit prime of R6. -/
def Config.p : Nat := 0x30644e72e131a029b85045b68181585d97816a916871ca8d3c208c16d87cfd47

/-- `EXP_INV = p - 2`, the exponent of FINV (R7). -/
def Config.expInv : Nat := 0x30644e72e131a029b85045b68181585d97816a916871ca8d3c208c16d87cfd45

/-- `EXP_SQRT = (p + 1) / 4`, the exponent of FSQRT (R7). -/
def Config.expSqrt : Nat := 0x0c19139cb84c680a6e14116da060561765e05aa45a1c72a34f082305b61f3f52

/-- `R_INV`, the inverse of the Montgomery radix `2^256` modulo `p` (R7). -/
def Config.rInv : Nat := 0x2e67157159e5c639cf63e9cfb74492d9eb2022850278edf8ed84884a014afa37

/-- `R_MOD_P = 2^256 mod p` (R7): no command reads it; a host uses it with MONTMUL. -/
def Config.rModP : Nat := 0x0e0a77c19a07df2f666ea36f7879462c0a78eb28f5c70b3dd35d438dc58f0d9d

/-- `R2_MOD_P = 2^512 mod p` (R7): no command reads it; a host uses it with MONTMUL. -/
def Config.r2ModP : Nat := 0x06d89f71cab8351f47ab1eff0a417ff6b5e71911d44501fbf32cfc5b538afa89

/-- `HALF = (p - 1) / 2` (R7), informative. -/
def Config.half : Nat := 0x183227397098d014dc2822db40c0ac2ecbc0b548b438e5469e10460b6c3e7ea3

/-- `P_PRIME = -p^-1 mod 2^256` (R7), informative. -/
def Config.pPrime : Nat := 0xf57a22b791888c6bd8afcbd01833da809ede7d651eca6ac987d20782e4866389

/-- `COUNT`, the field elements one hash-to-field makes (R8). -/
abbrev Config.count : Nat := 2

/-- `L`, the bytes of one field element in hash-to-field (R8). -/
abbrev Config.chunk : Nat := 48

/-- `DST_MAX`, the longest domain tag (R8). -/
abbrev Config.dstMax : Nat := 255

/-- `ZPAD_LEN`, the length of `Z_pad` (R8). -/
abbrev Config.zPadLen : Nat := 136

/-- `HASH_LEN`, the digest length of `H` (R8). -/
abbrev Config.hashLen : Nat := 32

/-- `EXP_BITS`, the exponent width of MODPOW and the number of passes of its loop (R8, R103). -/
abbrev Config.expBits : Nat := 256

/-- `DST_BYTES`, the size of the DST buffer (R8, R34). -/
abbrev Config.dstBytes : Nat := 256

/-- `MSG_BYTES`, the size of the MSG buffer and the longest message (R8, R35). -/
abbrev Config.msgBytes : Nat := 4096

/-- `OUT_BYTES`, the size of the OUT buffer (R8, R36). -/
abbrev Config.outBytes : Nat := 8192

/-- The most blocks an expansion may have, `OUTLEN_MAX / 32` (R8, R146 check 3). -/
abbrev Config.maxBlocks : Nat := 255

/-- `B2F_MAX`, the longest byte-to-field chunk (R8, R171). -/
abbrev Config.b2fMax : Nat := 48

/-- `WINDOW`, the size of the host address window (R8, R50). -/
abbrev Config.window : Nat := 16384

/-- The ID register's constant, "SLB1" (R26). -/
def Config.idWord : Word := 0x534C4231#32

/-- The window offset of `F0` (R51). -/
abbrev Config.fieldBase : Nat := 0x0200

/-- The window offset of `DST[0]` (R51). -/
abbrev Config.dstBase : Nat := 0x0400

/-- The window offset of `MSG[0]` (R51). -/
abbrev Config.msgBase : Nat := 0x1000

/-- The window offset of `OUT[0]` (R51). -/
abbrev Config.outBase : Nat := 0x2000

/-- What a buffer byte that no cell lists reads as.
DESIGN CHOICE (unsafe, log entry 2): R241 leaves the reset contents of DST, MSG and OUT unspecified and lets a model
draw them at reset; `State.reset` takes this byte everywhere, and a reset pulse carries any draw. -/
def Config.unlistedByte : Byte := 0x00#8

/-- What a field register holds at `State.reset`.
DESIGN CHOICE (unsafe, log entry 1): R241 leaves it unspecified; a reset pulse carries any draw. -/
def Config.resetField : FieldWord := 0#256

/-- The 32 bytes the entropy port delivers at its `k`-th draw (R112): a free value, under no law
(spec/93_implementation_defined.md U3). No body: a statement about FRAND holds for every draw (log entry 3). -/
opaque Config.entropy32 : Nat → Vector Byte 32

end Sys2Proof
end

