-- ==== Sys2Proof/Machine/Bytes.lean ====
section
/-! DEFINITION. Byte strings and their integers (spec/00_scope.md R11, R12), and the packing of a 32-bit bus word into
bytes and into slices of a field register (spec/20_memory.md R52, R53). Everything is big-endian (R54). -/

namespace Sys2Proof.Machine

/-- `I2OSP(x, n)`: the big-endian `n`-byte encoding of `x`, defined for `x < 256^n` (R12). -/
def i2osp (x n : Nat) : List Byte := (List.range n).map fun i => BitVec.ofNat 8 (x / 256 ^ (n - 1 - i))

/-- `OS2IP(s)`: the unsigned integer whose big-endian encoding is `s`; 0 of the empty string (R12). -/
def os2ip (s : List Byte) : Nat := s.foldl (fun acc b => 256 * acc + b.toNat) 0

/-- `strxor(s, t)`, byte by byte (R11). -/
def strxor (s t : List Byte) : List Byte := List.zipWith (· ^^^ ·) s t

/-- `bytes(n, v)` (R11). -/
def bytesOf (n : Nat) (v : Byte) : List Byte := List.replicate n v

/-- `ceil(x / y)` (R9). -/
def ceilDiv (x y : Nat) : Nat := (x + y - 1) / y

/-- The bus word whose bytes, from bits `[31:24]` down, are these four (R53). -/
def packWord (b0 b1 b2 b3 : Byte) : Word := b0 ++ b1 ++ b2 ++ b3

/-- The four bytes of a bus word, from bits `[31:24]` down (R53). -/
def unpackWord (v : Word) : List Byte :=
  [v.extractLsb' 24 8, v.extractLsb' 16 8, v.extractLsb' 8 8, v.extractLsb' 0 8]

/-- The lowest bit of word `j` of a field register: word 0 is the most significant (R52). -/
def sliceLow (j : Fin 8) : Nat := 224 - 32 * j.val

/-- Word `j` of a field register, `F[k][255-32*j : 224-32*j]` (R52). -/
def readSlice (r : FieldWord) (j : Fin 8) : Word := r.extractLsb' (sliceLow j) 32

/-- The field register with word `j` replaced and the other 224 bits unchanged (R52). -/
def writeSlice (r : FieldWord) (j : Fin 8) (v : Word) : FieldWord :=
  (r &&& ~~~((0xFFFFFFFF#32).setWidth 256 <<< sliceLow j)) ||| (v.setWidth 256 <<< sliceLow j)

end Sys2Proof.Machine
end

