-- ==== Sys2Proof/Machine/State.lean ====
section
/-! DEFINITION. The state of SOLBLS-FH as plain data (spec/10_state.md R20 to R40), the host accesses and the events that
reach its ports, the reasons a step stops, and the state after reset (spec/70_reset_and_hazards.md R240, R241). -/

namespace Sys2Proof.Machine

/-- The error codes of STATUS.LASTERR (spec/60_exceptions.md R210). Codes 7 to 15 are never produced
(spec/93_implementation_defined.md U5), so they have no constructor. -/
inductive ErrCode where
  /-- 0: the last completed command succeeded. -/
  | none
  /-- 1: undefined opcode, non-zero must-be-zero field, or B2F `len > 48`. -/
  | illegal
  /-- 2: `DSTLEN > 255`. -/
  | invalidDomainLength
  /-- 3: FINV of 0. -/
  | divisionByZero
  /-- 4: an operand register holds a value not below `p`. -/
  | nonCanonical
  /-- 5: `MSGLEN > 4096`, `n > 8192`, or B2F `off + len > 8192`. -/
  | bounds
  /-- 6: `ceil(n / 32) > 255`. -/
  | outputLength
deriving DecidableEq, Repr

/-- The storage of the byte buffers DST, MSG and OUT, keyed by window offset (spec/20_memory.md R51): cells at strictly
rising addresses, none holding what an unlisted address reads as. -/
abbrev Memory := List Host.Cell

/-- What a host access asks for (R50). -/
inductive BusOp where
  /-- `BusRead(off)`. -/
  | read
  /-- `BusWrite(off, v)`. -/
  | write (v : Word)
deriving DecidableEq, Repr

/-- One access as the host bus port receives it (R50): the offset from the window base, the byte enables, and how many
32-bit words it asks for. R56 accepts only all four enables and one word. -/
structure Access where
  op      : BusOp
  off     : BitVec 14
  enables : BitVec 4
  beats   : Nat
deriving DecidableEq, Repr

/-- The response an access ends with (R50). An access that is held has none yet. -/
inductive BusResponse where
  /-- A read returned this word. -/
  | data (v : Word)
  /-- A write was taken. -/
  | done
  /-- The access ended with a bus error (R58). -/
  | error
deriving DecidableEq, Repr

/-- An access with its response, as the bus master sees them. -/
structure BusTransaction where
  access   : Access
  response : BusResponse
deriving DecidableEq, Repr

/-- One transaction on a master port of the block (R40, R252). -/
inductive PortTransaction where
  /-- The hash port sent this byte string; the digest it received is `hash` of it (R148). -/
  | hash (sent : List Byte)
  /-- The entropy port requested 32 bytes; it received `Config.entropy32 draw` (R112). -/
  | entropy (draw : Nat)
deriving DecidableEq, Repr

/-- A collaborator behind a master port (spec/00_scope.md R14). -/
inductive Port where
  | hash
  | entropy
deriving DecidableEq, Repr

/-- One reset pulse (R240) with what the reset leaves open: the values every field register and every buffer byte hold
after it (R241, a draw per location), and how many port transactions of a command in flight had started when it came
(R242). -/
structure ResetPulse where
  regs    : Vector FieldWord 16
  cells   : List Host.Cell
  started : Nat
deriving DecidableEq, Repr

/-- What reaches the block from outside, in the order it does (R249: any interleaving the ordering rules allow). -/
inductive Event where
  /-- The host issues an access (R50, R63 (a), R65). -/
  | access (a : Access)
  /-- The completion of the command in flight falls here (R215, R249). With no command in flight it says nothing. -/
  | complete
  /-- `rst_n` is 0 at a rising edge (R240, R242). -/
  | reset (pulse : ResetPulse)
  /-- From here on the collaborator behind this port never answers the command in flight
  (spec/93_implementation_defined.md U6, U7). For a command that makes no transaction on that port it says nothing. -/
  | silent (port : Port)
deriving DecidableEq, Repr

/-- The event is an access of the host. -/
def Event.isAccess : Event → Bool
  | .access _ => true
  | .complete => false
  | .reset _ => false
  | .silent _ => false

/-- Why the machine stops for good. -/
inductive Fault where
  /-- Raised by `step` when the command in flight waits for good on the hash collaborator and nothing more can reach the
  block: it is stuck (U6, R250). SAFE: nothing is claimed of the machine from there on. -/
  | hashPortSilent
  /-- Raised by `step` when the command in flight waits for good on the entropy source and nothing more can reach the
  block: it is stuck (U7, R250). SAFE: nothing is claimed of the machine from there on. -/
  | entropyPortSilent
deriving DecidableEq, Repr

/-- Why a command has no meaning in the model. -/
inductive Refusal where
  /-- Raised by `exec` alone, for a command whose arm gives it no meaning; no arm of this model does. SAFE. -/
  | notModelled (mnemonic : String)
deriving DecidableEq, Repr

/-- The state. The fields from `fregs` to `inflight` are the architectural state of R20, each under the rule that names
it; STATUS.BUSY is `inflight` seen as one bit (R38) and `irq` is a function of CTRL and STATUS (R218), so neither has
a field. The fields from `held` on are the model's own record of the ports: what the bus port holds, what the
command in flight waits on for good, what reaches the block next, and the transactions made. -/
structure State where
  /-- The field registers `F0` to `F15` (R21). -/
  fregs    : Vector FieldWord 16
  /-- CTRL.IE (R27). -/
  ie       : Bool
  /-- STATUS.FOUND (R28, R30). -/
  found    : Bool
  /-- STATUS.DONE (R28). -/
  done     : Bool
  /-- STATUS.ERRSEEN (R28). -/
  errSeen  : Bool
  /-- STATUS.LASTERR (R28, R210). -/
  lastErr  : ErrCode
  /-- CMD, the last accepted command word (R29). -/
  cmd      : Word
  /-- DSTLEN (R32). -/
  dstLen   : BitVec 16
  /-- MSGLEN (R33). -/
  msgLen   : BitVec 16
  /-- The buffers DST, MSG and OUT (R34 to R36). -/
  mem      : Memory
  /-- The command word of the command being executed, or none (R38). -/
  inflight : Option Word
  /-- The access the interlock holds without a response, or none (R50, R61). -/
  held     : Option Access
  /-- The port whose collaborator never answers the command in flight, so that it hangs; none as long as every answer
  comes in finite time (R250, U6, U7). -/
  hung     : Option Port
  /-- What reaches the block next, earliest first (R249). -/
  agenda   : List Event
  /-- The host accesses that got a response, in order (R63). -/
  busLog   : List BusTransaction
  /-- The hash-port and entropy-port transactions made, in order (R252). -/
  portLog  : List PortTransaction
  /-- How many draws the entropy port has delivered or been asked for (R112). -/
  draws    : Nat
deriving DecidableEq, Repr

/-- The machine right after reset: R240 for the control registers and `inflight`; the field registers and buffers, which
R241 leaves unspecified, hold the values of log entries 1 and 2; nothing has reached the ports yet. -/
def State.reset : State where
  fregs    := Vector.replicate 16 Config.resetField
  ie       := false
  found    := false
  done     := false
  errSeen  := false
  lastErr  := .none
  cmd      := 0x00000000#32
  dstLen   := 0#16
  msgLen   := 0#16
  mem      := []
  inflight := none
  held     := none
  hung     := none
  agenda   := []
  busLog   := []
  portLog  := []
  draws    := 0

end Sys2Proof.Machine
end

