-- ==== Sys2Proof/Machine/Ops.lean ====
section
/-! DEFINITION. The named operations over the buffers and the field registers (spec/00_scope.md R13), and the events of a
command's life as shared operations: acceptance (spec/60_exceptions.md R216), successful completion (R215), error
completion (R214), which is all the block has in place of taking an exception (R219) and which nothing returns from
(R220), and reset (spec/70_reset_and_hazards.md R240 to R242). -/

namespace Sys2Proof.Machine

/-! ### The buffers -/

/-- The window offset is a byte of DST, MSG or OUT (spec/20_memory.md R51). -/
def inBuffer (a : Nat) : Bool :=
  (Config.dstBase ≤ a && a < Config.dstBase + Config.dstBytes) ||
  (Config.msgBase ≤ a && a < Config.msgBase + Config.msgBytes) ||
  (Config.outBase ≤ a && a < Config.outBase + Config.outBytes)

/-- The byte at a window offset. -/
def Memory.read : Memory → Nat → Byte
  | [], _ => Config.unlistedByte
  | (b, v) :: rest, a => if b = a then v else Memory.read rest a

/-- The buffers with no cell at a window offset, so that it reads as the unlisted byte. -/
def Memory.erase (m : Memory) (a : Nat) : Memory := m.filter fun c => c.1 != a

/-- The buffers with a cell put before the first cell at a higher offset. -/
def Memory.insert : Memory → Nat → Byte → Memory
  | [], a, v => [(a, v)]
  | (b, u) :: rest, a, v => if a < b then (a, v) :: (b, u) :: rest else (b, u) :: Memory.insert rest a v

/-- The buffers with the byte at a window offset replaced: the canonical form is kept, since writing the unlisted byte
leaves no cell. -/
def Memory.write (m : Memory) (a : Nat) (v : Byte) : Memory :=
  if v = Config.unlistedByte then m.erase a else (m.erase a).insert a v

/-- The `n` bytes from window offset `a` up. -/
def Memory.readBytes (m : Memory) (a n : Nat) : List Byte := (List.range n).map fun i => m.read (a + i)

/-- The buffers with the bytes from window offset `a` up replaced by `s`. -/
def Memory.writeBytes : Memory → Nat → List Byte → Memory
  | m, _, [] => m
  | m, a, v :: rest => Memory.writeBytes (m.write a v) (a + 1) rest

/-- Buffers that hold these cells and the unlisted byte elsewhere; cells outside the buffers are dropped, and of two
cells at one offset the first counts. -/
def Memory.ofCells (cells : List Host.Cell) : Memory :=
  cells.foldr (fun c m => if inBuffer c.1 then m.write c.1 c.2 else m) []

/-- The canonical form of the buffers: strictly rising offsets, all of them buffer bytes, and no cell equal to what an
unlisted offset reads as. -/
abbrev Memory.wf (m : Memory) : Prop :=
  m.Pairwise (fun c d => c.1 < d.1) ∧ ∀ c ∈ m, inBuffer c.1 = true ∧ c.2 ≠ Config.unlistedByte

/-- The byte at a window offset. -/
def State.byte (s : State) (a : Nat) : Byte := s.mem.read a

/-- `DST[i]` (R13, R34). -/
def State.dst (s : State) (i : Nat) : Byte := s.byte (Config.dstBase + i)

/-- `MSG[i]` (R13, R35). -/
def State.msg (s : State) (i : Nat) : Byte := s.byte (Config.msgBase + i)

/-- `OUT[i]` (R13, R36). -/
def State.out (s : State) (i : Nat) : Byte := s.byte (Config.outBase + i)

/-- `OUT[0 : len(bytes)] <- bytes`; every other OUT byte is unchanged (R36). -/
def State.writeOut (s : State) (bytes : List Byte) : State :=
  { s with mem := s.mem.writeBytes Config.outBase bytes }

/-! ### The field registers -/

/-- `F[r]` (R13, R21). -/
def State.reg (s : State) (r : Reg) : FieldWord := s.fregs[r]

/-- `F[r] <- v` (R13, R21). -/
def State.setReg (s : State) (r : Reg) (v : FieldWord) : State := { s with fregs := s.fregs.set r v }

/-- `F[r] <- v` of an exact integer below `2^256` (R102). -/
def State.setField (s : State) (r : Reg) (v : Nat) : State := s.setReg r (BitVec.ofNat 256 v)

/-! ### The ports -/

/-- These byte strings were sent on the hash port, in this order (R143, R148). -/
def State.logHash (s : State) (sent : List (List Byte)) : State :=
  { s with portLog := s.portLog ++ sent.map .hash }

/-- The entropy port was asked for its next 32 bytes (R112). -/
def State.logEntropy (s : State) : State :=
  { s with portLog := s.portLog ++ [.entropy s.draws], draws := s.draws + 1 }

/-! ### The life of a command -/

/-- STATUS.BUSY: a command is in flight (R38). -/
def State.busy (s : State) : Bool := s.inflight.isSome

/-- Acceptance of the command word `w` (R216, R29). DONE, ERRSEEN, LASTERR and FOUND keep their values. The new command
waits on nobody yet. -/
def State.accept (s : State) (w : Word) : State := { s with cmd := w, inflight := some w, hung := none }

/-- Successful completion: the command's results stand in `s` already (R215). ERRSEEN is left unchanged. -/
def State.completeOk (s : State) : State := { s with lastErr := .none, done := true, inflight := none }

/-- Error completion with code `e` (R214): STATUS alone changes. -/
def State.completeError (s : State) (e : ErrCode) : State :=
  { s with lastErr := e, errSeen := true, done := true, inflight := none }

/-- How every command ends: with the state its rule computed, completed; or, on `raise Error(e)`, with the state held
at acceptance, error-completed, so that no other effect remains (R66, R214, R215). -/
def finish (s : State) : Except ErrCode State → Host.Outcome State Fault Refusal
  | .ok t => .next t.completeOk
  | .error e => .next (s.completeError e)

/-! ### Reset -/

/-- The block after a reset pulse (R240): every control register at its reset value, nothing in flight and nothing held,
the field registers and buffers at the pulse's draw (R241). The record of the ports is the outside world's and stays. -/
def State.applyReset (s : State) (pulse : ResetPulse) : State :=
  { s with
    fregs := pulse.regs, ie := false, found := false, done := false, errSeen := false, lastErr := .none,
    cmd := 0x00000000#32, dstLen := 0#16, msgLen := 0#16, mem := Memory.ofCells pulse.cells,
    inflight := none, held := none, hung := none }

end Sys2Proof.Machine
end

