-- ==== Sys2Proof/Machine/Flags.lean ====
section
/-! DEFINITION. The words of CTRL and STATUS as software reads and writes them (spec/10_state.md R25, R27, R28), the codes
of LASTERR (spec/60_exceptions.md R210), the write of FOUND (R30), and the interrupt line (R218). -/

namespace Sys2Proof.Machine

/-- The 4-bit code of STATUS.LASTERR (R210). -/
def ErrCode.code : ErrCode → BitVec 4
  | .none => 0#4
  | .illegal => 1#4
  | .invalidDomainLength => 2#4
  | .divisionByZero => 3#4
  | .nonCanonical => 4#4
  | .bounds => 5#4
  | .outputLength => 6#4

/-- STATUS as read: LASTERR `[7:4]`, ERRSEEN `[3]`, DONE `[2]`, FOUND `[1]`, BUSY `[0]`, and 0 above (R25, R28). -/
def State.statusWord (s : State) : Word :=
  0#24 ++ s.lastErr.code ++ BitVec.ofBool s.errSeen ++ BitVec.ofBool s.done ++ BitVec.ofBool s.found ++
    BitVec.ofBool s.busy

/-- A write of STATUS: bit 2 = 1 clears DONE, bit 3 = 1 clears ERRSEEN, and nothing else is written (R25, R28). -/
def State.writeStatus (s : State) (v : Word) : State :=
  { s with done := s.done && !v.getLsbD 2, errSeen := s.errSeen && !v.getLsbD 3 }

/-- CTRL as read: IE in bit 0, and 0 above (R27). -/
def State.ctrlWord (s : State) : Word := 0#31 ++ BitVec.ofBool s.ie

/-- A write of CTRL: bit 0 is IE, the reserved bits are ignored (R25, R27). -/
def State.writeCtrl (s : State) (v : Word) : State := { s with ie := v.getLsbD 0 }

/-- STATUS.FOUND `<- v`; only FSQRT does it (R30). -/
def State.setFound (s : State) (v : Bool) : State := { s with found := v }

/-- The interrupt line: `CTRL.IE AND STATUS.DONE` at every instant (R218). -/
def State.irq (s : State) : Bool := s.ie && s.done

end Sys2Proof.Machine
end

