-- ==== Sys2Proof/Machine/Keccak.lean ====
section
/-! DEFINITION. The binding of the hash port: `H` is Keccak-256 (spec/43_hash_binding.md R190 to R197). The state is the
list of the 25 lanes `A[x][y]` in the order `x + 5*y` (R191). -/

namespace Sys2Proof.Machine

/-- A lane of the Keccak state (R191). -/
abbrev Lane := BitVec 64

/-- `A[x][y]`, indices mod 5 (R191, R194). -/
def lane (A : List Lane) (x y : Nat) : Lane := A.getD (x % 5 + 5 * (y % 5)) 0#64

/-- The state whose lane `A[x][y]` is `f x y` (R191). -/
def buildLanes (f : Nat → Nat → Lane) : List Lane := (List.range 25).map fun i => f (i % 5) (i / 5)

/-- `r[x][y]`, at index `x + 5*y` (R195). -/
def rotationOffsets : List Nat :=
  [ 0,  1, 62, 28, 27,
   36, 44,  6, 55, 20,
    3, 10, 43, 25, 39,
   41, 45, 15, 21,  8,
   18,  2, 61, 56, 14]

/-- `RC[0]` to `RC[23]` (R196). -/
def roundConstants : List Lane :=
  [0x0000000000000001#64, 0x0000000000008082#64, 0x800000000000808A#64, 0x8000000080008000#64,
   0x000000000000808B#64, 0x0000000080000001#64, 0x8000000080008081#64, 0x8000000000008009#64,
   0x000000000000008A#64, 0x0000000000000088#64, 0x0000000080008009#64, 0x000000008000000A#64,
   0x000000008000808B#64, 0x800000000000008B#64, 0x8000000000008089#64, 0x8000000000008003#64,
   0x8000000000008002#64, 0x8000000000000080#64, 0x000000000000800A#64, 0x800000008000000A#64,
   0x8000000080008081#64, 0x8000000000008080#64, 0x0000000080000001#64, 0x8000000080008008#64]

/-- Theta: every lane takes in the parities of two columns (R194). -/
def keccakTheta (A : List Lane) : List Lane :=
  let C := (List.range 5).map fun x => lane A x 0 ^^^ lane A x 1 ^^^ lane A x 2 ^^^ lane A x 3 ^^^ lane A x 4
  let D := (List.range 5).map fun x => C.getD ((x + 4) % 5) 0#64 ^^^ (C.getD ((x + 1) % 5) 0#64).rotateLeft 1
  buildLanes fun x y => lane A x y ^^^ D.getD x 0#64

/-- Rho and pi: `B[y][2*x + 3*y] <- rotl(A[x][y], r[x][y])` (R194). Lane `B[u][v]` comes from `y = u` and the `x` with
`2*x + 3*u = v` mod 5, which is `u + 3*v`. -/
def keccakRhoPi (A : List Lane) : List Lane :=
  buildLanes fun u v => (lane A (u + 3 * v) u).rotateLeft (rotationOffsets.getD ((u + 3 * v) % 5 + 5 * u) 0)

/-- Chi (R194). -/
def keccakChi (B : List Lane) : List Lane :=
  buildLanes fun x y => lane B x y ^^^ (~~~(lane B (x + 1) y) &&& lane B (x + 2) y)

/-- Iota: lane `A[0][0]` takes in the round constant (R194). -/
def keccakIota (rc : Lane) (A : List Lane) : List Lane :=
  buildLanes fun x y => if x = 0 ∧ y = 0 then lane A x y ^^^ rc else lane A x y

/-- One round (R194). -/
def keccakRound (A : List Lane) (rc : Lane) : List Lane := keccakIota rc (keccakChi (keccakRhoPi (keccakTheta A)))

/-- Keccak-f[1600]: 24 rounds (R194). -/
def keccakF (A : List Lane) : List Lane := roundConstants.foldl keccakRound A

/-- The rate, 136 bytes (R190). -/
def keccakRate : Nat := 136

/-- The lane of 8 bytes, little-endian (R191). -/
def laneOfBytes (b : List Byte) : Lane := BitVec.ofNat 64 (b.foldr (fun x n => x.toNat + 256 * n) 0)

/-- The 8 bytes of a lane, little-endian (R197). -/
def bytesOfLane (l : Lane) : List Byte := (List.range 8).map fun i => l.extractLsb' (8 * i) 8

/-- The padded input: `s || 0x01 || 0x00 ...` up to a multiple of the rate, the last byte then ORed with `0x80`
(R192). -/
def keccakPad (s : List Byte) : List Byte :=
  let k := keccakRate - 1 - s.length % keccakRate
  let padded := s ++ 0x01#8 :: bytesOf k 0x00#8
  padded.dropLast ++ [padded.getLastD 0x00#8 ||| 0x80#8]

/-- One 136-byte block is XORed into the first 17 lanes and the permutation applied (R191, R193). -/
def keccakAbsorb (A : List Lane) (block : List Byte) : List Lane :=
  keccakF <| buildLanes fun x y =>
    if x + 5 * y < 17 then lane A x y ^^^ laneOfBytes ((block.drop (8 * (x + 5 * y))).take 8) else lane A x y

/-- The first `n` blocks of the padded input, absorbed in order (R193). -/
def keccakBlocks : (n : Nat) → (padded : List Byte) → List Lane → List Lane
  | 0, _, A => A
  | n + 1, padded, A => keccakBlocks n (padded.drop keccakRate) (keccakAbsorb A (padded.take keccakRate))

/-- Keccak-256: the digest is the first four lanes, each little-endian (R190, R197). -/
def keccak256 (s : List Byte) : List Byte :=
  let padded := keccakPad s
  let A := keccakBlocks (padded.length / keccakRate) padded (buildLanes fun _ _ => 0#64)
  bytesOfLane (lane A 0 0) ++ bytesOfLane (lane A 1 0) ++ bytesOfLane (lane A 2 0) ++ bytesOfLane (lane A 3 0)

/-- `H(s)`, what the hash port answers (R190; spec/41_message_expansion.md R148). -/
def hash (s : List Byte) : List Byte := keccak256 s

end Sys2Proof.Machine
end

