-- ==== Sys2Proof/Machine/Operands.lean ====
section
/-! DEFINITION. The operand classes of the commands (spec/40_field_arithmetic.md R100) and the implicit operands of the
expansion (spec/41_message_expansion.md R140, R146) and of B2F (spec/42_field_hasher.md R171). Reading an operand changes
nothing; every operand is read from the state at acceptance, before any result is written (R101). -/

namespace Sys2Proof.Machine

/-- A raw operand: any 256-bit value is accepted (R100). -/
def State.raw (s : State) (r : Reg) : Nat := (s.reg r).toNat

/-- A canonical operand: error 4, NonCanonical, if the register holds a value not below `p` (R100 `CheckCanon`). -/
def State.canonical (s : State) (r : Reg) : Except ErrCode Nat :=
  if (s.reg r).toNat < Config.p then .ok (s.reg r).toNat else .error .nonCanonical

/-- The domain tag `DST[0:DSTLEN]` (R140). -/
def State.domainTag (s : State) : List Byte := s.mem.readBytes Config.dstBase s.dstLen.toNat

/-- The message `MSG[0:MSGLEN]` (R140). -/
def State.message (s : State) : List Byte := s.mem.readBytes Config.msgBase s.msgLen.toNat

/-- The chunk `OUT[off : off + len]` (R171). -/
def State.chunk (s : State) (off len : Nat) : List Byte := s.mem.readBytes (Config.outBase + off) len

/-- The checks before an expansion of `n` bytes, in the order of R146; the first that fails is the error. -/
def State.checkExpansion (s : State) (n : Nat) : Except ErrCode Unit :=
  if Config.dstMax < s.dstLen.toNat then .error .invalidDomainLength
  else if Config.msgBytes < s.msgLen.toNat then .error .bounds
  else if Config.maxBlocks < ceilDiv n Config.hashLen then .error .outputLength
  else if Config.outBytes < n then .error .bounds
  else .ok ()

end Sys2Proof.Machine
end

