-- ==== Sys2Proof/Machine/Expand.lean ====
section
/-! DEFINITION. The MessageExpander family (spec/41_message_expansion.md): the expansion over any hash `H`, and XMD. The
hash is an argument, so that what does not depend on the digest is said of every `H` (R148); the block's is `hash`. -/

namespace Sys2Proof.Machine

/-- `DST'`, the domain tag followed by its length in one byte (R141). -/
def dstPrime (dst : List Byte) : List Byte := dst ++ i2osp dst.length 1

/-- The input of `b[0]` (R142 step 1, R144). -/
def firstInput (dst msg : List Byte) (n : Nat) : List Byte :=
  bytesOf Config.zPadLen 0x00#8 ++ msg ++ i2osp n 2 ++ i2osp 0 1 ++ dstPrime dst

/-- The input of `b[i]` for `i >= 1`: 32 bytes, the block index, `DST'` (R142 steps 2 and 3, R144). -/
def blockInput (chain : List Byte) (i : Nat) (dst : List Byte) : List Byte := chain ++ i2osp i 1 ++ dstPrime dst

/-- An expansion: its output and the byte strings it sent on the hash port, in order (R142, R143). -/
structure Expansion where
  out   : List Byte
  calls : List (List Byte)
deriving DecidableEq, Repr

/-- Step 3 of R142, from pass `i` on: `left` passes remain and `b` is `b[i]`. -/
def expandBlocks (H : List Byte → List Byte) (dst b0 : List Byte) (n : Nat) :
    (left i : Nat) → (b : List Byte) → Expansion
  | 0, _, _ => ⟨[], []⟩
  | left + 1, i, b =>
    let emitted := b.take (min Config.hashLen (n - (i - 1) * Config.hashLen))
    if left = 0 then ⟨emitted, []⟩
    else
      let input := blockInput (strxor b0 b) (i + 1) dst
      let rest := expandBlocks H dst b0 n left (i + 1) (H input)
      ⟨emitted ++ rest.out, input :: rest.calls⟩

/-- `Expand(dst, msg, n)` over the hash `H` (R142). -/
def expandWith (H : List Byte → List Byte) (dst msg : List Byte) (n : Nat) : Expansion :=
  let input0 := firstInput dst msg n
  let b0 := H input0
  let input1 := blockInput b0 1 dst
  let rest := expandBlocks H dst b0 n (ceilDiv n Config.hashLen) 1 (H input1)
  ⟨rest.out, input0 :: input1 :: rest.calls⟩

/-- The expansion of `n` bytes from the domain tag and message the state holds (R140, R142, R148). -/
def State.expand (s : State) (n : Nat) : Expansion := expandWith hash s.domainTag s.message n

/-- XMD (R147). -/
def execXmd (n : BitVec 16) (s : State) : Host.Outcome State Fault Refusal :=
  finish s do
    s.checkExpansion n.toNat
    let x := s.expand n.toNat
    .ok ((s.logHash x.calls).writeOut x.out)

end Sys2Proof.Machine
end

