-- ==== Sys2Proof/Machine/FieldArith.lean ====
section
/-! DEFINITION. The FieldArithmetic family (spec/40_field_arithmetic.md): FMUL, MONTMUL, MODPOW, FINV, FSQRT, FRED, FRAND.
Every product and power is of exact integers and is reduced at the end (R102); every value written is below `p`
(R100). -/

namespace Sys2Proof.Machine

/-- The passes of the square-and-multiply loop from pass `i` on (R103): least-significant exponent bit first. -/
def powLoop (e : FieldWord) : (passes i base acc : Nat) → Nat
  | 0, _, _, acc => acc
  | passes + 1, i, base, acc =>
    powLoop e passes (i + 1) (base * base % Config.p) (if e.getLsbD i then acc * base % Config.p else acc)

/-- `ModPow(b, e)` (R103): 256 passes, the base reduced first, the accumulator starting at 1 (spec/92_eei_decisions.md
D29). -/
def modPow (b : Nat) (e : FieldWord) : Nat := powLoop e Config.expBits 0 (b % Config.p) 1

/-- FMUL (R104). -/
def execFmul (rd ra rb : Reg) (s : State) : Host.Outcome State Fault Refusal :=
  finish s do
    let a ← s.canonical ra
    let b ← s.canonical rb
    .ok (s.setField rd (a * b % Config.p))

/-- MONTMUL, with radix `2^256` and a fully reduced result (R105). -/
def execMontmul (rd ra rb : Reg) (s : State) : Host.Outcome State Fault Refusal :=
  finish s do
    let a ← s.canonical ra
    let b ← s.canonical rb
    .ok (s.setField rd (a * b * Config.rInv % Config.p))

/-- MODPOW: base and exponent are raw (R106). -/
def execModpow (rd ra rb : Reg) (s : State) : Host.Outcome State Fault Refusal :=
  finish s (.ok (s.setField rd (modPow (s.raw ra) (s.reg rb))))

/-- FINV: NonCanonical is checked before zero (R107). -/
def execFinv (rd ra : Reg) (s : State) : Host.Outcome State Fault Refusal :=
  finish s do
    let a ← s.canonical ra
    if a = 0 then .error .divisionByZero
    else .ok (s.setField rd (modPow a (BitVec.ofNat 256 Config.expInv)))

/-- FSQRT: the candidate is written whether or not it is a root, and FOUND says which (R108). -/
def execFsqrt (rd ra : Reg) (s : State) : Host.Outcome State Fault Refusal :=
  finish s do
    let a ← s.canonical ra
    let c := modPow a (BitVec.ofNat 256 Config.expSqrt)
    .ok ((s.setField rd c).setFound (c * c % Config.p == a))

/-- FRED (R109). -/
def execFred (rd ra : Reg) (s : State) : Host.Outcome State Fault Refusal :=
  finish s (.ok (s.setField rd (s.raw ra % Config.p)))

/-- FRAND of these 32 entropy bytes (R110). -/
def frandWith (entropy : Vector Byte 32) (rd : Reg) (s : State) : Host.Outcome State Fault Refusal :=
  finish s (.ok (s.logEntropy.setField rd (os2ip entropy.toList % Config.p)))

/-- FRAND: the bytes are the entropy port's next draw, a free value (R110, R112, log entry 3). -/
def execFrand (rd : Reg) (s : State) : Host.Outcome State Fault Refusal :=
  frandWith (Config.entropy32 s.draws) rd s

end Sys2Proof.Machine
end

