-- ==== Sys2Proof/Machine/Hasher.lean ====
section
/-! DEFINITION. The FieldHasher family (spec/42_field_hasher.md): H2F and B2F. -/

namespace Sys2Proof.Machine

/-- The big-endian byte-to-field reduction of a byte string, `OS2IP(s) mod p` (R170, R171). -/
def reduceBytes (s : List Byte) : Nat := os2ip s % Config.p

/-- H2F: element 1 is written after element 0, so it stays when `rd = rd2` (R170). -/
def execH2f (rd rd2 : Reg) (s : State) : Host.Outcome State Fault Refusal :=
  finish s do
    s.checkExpansion (Config.count * Config.chunk)
    let u := s.expand (Config.count * Config.chunk)
    let t := (s.logHash u.calls).writeOut u.out
    .ok ((t.setField rd (reduceBytes (u.out.take Config.chunk))).setField rd2
      (reduceBytes ((u.out.drop Config.chunk).take Config.chunk)))

/-- B2F: the length check is made at decode time; the bounds check follows (R171). -/
def execB2f (rd : Reg) (len : BitVec 6) (off : BitVec 14) (s : State) : Host.Outcome State Fault Refusal :=
  finish s do
    if Config.b2fMax < len.toNat then .error .illegal
    else if Config.outBytes < off.toNat + len.toNat then .error .bounds
    else .ok (s.setField rd (reduceBytes (s.chunk off.toNat len.toNat)))

end Sys2Proof.Machine
end

