-- ==== Sys2Proof/Syntax.lean ====
section
/-! DEFINITION. The ten commands of spec/opcode_table.json (spec/30_encoding.md R85), one constructor each, with the
operand fields their formats carry (R81 to R83), and the four pseudo-instructions of R91, each by its exact expansion. -/

namespace Sys2Proof

/-- A command. Register fields are register numbers (R84); `n`, `len` and `off` are unsigned fields of the widths R82
and R83 give them. -/
inductive Instr where
  /-- FMUL: `F[rd] <- F[ra] * F[rb] mod p` (R104). -/
  | fmul (rd ra rb : Reg)
  /-- MONTMUL: `F[rd] <- F[ra] * F[rb] * R_INV mod p` (R105). -/
  | montmul (rd ra rb : Reg)
  /-- MODPOW: `F[rd] <- F[ra] ^ F[rb] mod p` (R106). -/
  | modpow (rd ra rb : Reg)
  /-- FINV: `F[rd] <- F[ra] ^ (p - 2) mod p` (R107). -/
  | finv (rd ra : Reg)
  /-- FSQRT: `F[rd] <- F[ra] ^ ((p + 1) / 4) mod p`, and FOUND (R108). -/
  | fsqrt (rd ra : Reg)
  /-- FRED: `F[rd] <- F[ra] mod p` (R109). -/
  | fred (rd ra : Reg)
  /-- FRAND: `F[rd] <- OS2IP(Entropy32()) mod p` (R110). -/
  | frand (rd : Reg)
  /-- XMD: `OUT[0:n] <- Expand(DST, MSG, n)` (R147). -/
  | xmd (n : BitVec 16)
  /-- H2F: hash to the two field elements `F[rd]`, `F[rd2]` (R170). -/
  | h2f (rd rd2 : Reg)
  /-- B2F: `F[rd] <- OS2IP(OUT[off : off + len]) mod p` (R171). -/
  | b2f (rd : Reg) (len : BitVec 6) (off : BitVec 14)
deriving DecidableEq, Repr

/-- `FSQR Fd, Fa` expands to `FMUL Fd, Fa, Fa` (R91). -/
def Instr.fsqr (d a : Reg) : Instr := .fmul d a a

/-- `FCLR Fd` expands to `B2F Fd, 0, 0` (R91). -/
def Instr.fclr (d : Reg) : Instr := .b2f d 0 0

/-- `FCANON Fd` expands to `FRED Fd, Fd` (R91). -/
def Instr.fcanon (d : Reg) : Instr := .fred d d

/-- `HTF Fd0, Fd1` is another name of `H2F Fd0, Fd1` (R91). -/
def Instr.htf (d0 d1 : Reg) : Instr := .h2f d0 d1

end Sys2Proof
end

