-- ==== Sys2Proof/Machine/Dispatch.lean ====
section
/-! DEFINITION. One arm per command: what completing it does to the state held at acceptance (spec/60_exceptions.md R215,
R216). -/

namespace Sys2Proof.Machine

open Host

def exec (i : Instr) (s : State) : Host.Outcome State Fault Refusal :=
  match i with
  | .fmul rd ra rb => Sys2Proof.Machine.execFmul rd ra rb s
  | .montmul rd ra rb => Sys2Proof.Machine.execMontmul rd ra rb s
  | .modpow rd ra rb => Sys2Proof.Machine.execModpow rd ra rb s
  | .finv rd ra => Sys2Proof.Machine.execFinv rd ra s
  | .fsqrt rd ra => Sys2Proof.Machine.execFsqrt rd ra s
  | .fred rd ra => Sys2Proof.Machine.execFred rd ra s
  | .frand rd => Sys2Proof.Machine.execFrand rd s
  | .xmd n => Sys2Proof.Machine.execXmd n s
  | .h2f rd rd2 => Sys2Proof.Machine.execH2f rd rd2 s
  | .b2f rd len off => Sys2Proof.Machine.execB2f rd len off s

end Sys2Proof.Machine
end

