-- ==== Sys2Proof/WellFormed.lean ====
section
/-! DEFINITION. Which terms of `Instr` are commands of the block. The types of the fields already bound every field but
one: the chunk length of B2F has 6 bits, of which 49 to 63 are the only reserved field values (spec/30_encoding.md
R89). -/

namespace Sys2Proof

/-- The command has an encoding that is not illegal (R87 (c), R89). -/
def Instr.wellFormed : Instr → Bool
  | .fmul _ _ _ => true
  | .montmul _ _ _ => true
  | .modpow _ _ _ => true
  | .finv _ _ => true
  | .fsqrt _ _ => true
  | .fred _ _ => true
  | .frand _ => true
  | .xmd _ => true
  | .h2f _ _ => true
  | .b2f _ len _ => len.toNat ≤ Config.b2fMax

end Sys2Proof
end

