-- ==== Sys2Proof/Decode.lean ====
section
/-! DEFINITION. The decoder and the encoder of the command word (spec/30_encoding.md R80 to R89), and the assembler
spelling of a command (R90). The decoder is total: every 32-bit word is a command or is illegal, under one of the three
names of R87. -/

namespace Sys2Proof

/-- Why a word is no command (R87). -/
inductive DecodeError where
  /-- R87 (a): the opcode is not one of the ten of R85. -/
  | undefinedOpcode (opcode : BitVec 8)
  /-- R87 (b): a field its row marks "must be zero" is not zero. -/
  | nonZeroField
  /-- R87 (c): a B2F whose `len` is 49 to 63. -/
  | reservedLength (len : BitVec 6)
deriving DecidableEq, Repr

/-- Bits `[31:24]`, from which alone the format is known (R80). -/
def opcodeOf (w : Word) : BitVec 8 := w.extractLsb' 24 8

/-- Bits `[23:20]`, `rd` of Formats R and B (R81, R83). -/
def rdOf (w : Word) : Reg := (w.extractLsb' 20 4).toFin

/-- Bits `[19:16]`, `ra` of Format R, which H2F calls `rd2` (R81). -/
def raOf (w : Word) : Reg := (w.extractLsb' 16 4).toFin

/-- Bits `[15:12]`, `rb` of Format R (R81). -/
def rbOf (w : Word) : Reg := (w.extractLsb' 12 4).toFin

/-- Bits `[15:0]`, `n` of Format X (R82). -/
def nOf (w : Word) : BitVec 16 := w.extractLsb' 0 16

/-- Bits `[19:14]`, `len` of Format B (R83). -/
def lenOf (w : Word) : BitVec 6 := w.extractLsb' 14 6

/-- Bits `[13:0]`, `off` of Format B (R83). -/
def offOf (w : Word) : BitVec 14 := w.extractLsb' 0 14

/-- The command `i`, provided the `size` bits from bit `lo` up, which its row marks "must be zero", are zero
(R85, R87 (b)). -/
def ifZero (w : Word) (lo size : Nat) (i : Instr) : Except DecodeError Instr :=
  if w.extractLsb' lo size = 0 then .ok i else .error .nonZeroField

/-- The decoder: the opcode selects the row of R85; the row's must-be-zero bits and B2F's length are then checked. -/
def decode (w : Word) : Except DecodeError Instr :=
  match (opcodeOf w).toNat with
  | 0x01 => ifZero w 0 12 (.fmul (rdOf w) (raOf w) (rbOf w))
  | 0x02 => ifZero w 0 12 (.montmul (rdOf w) (raOf w) (rbOf w))
  | 0x03 => ifZero w 0 12 (.modpow (rdOf w) (raOf w) (rbOf w))
  | 0x04 => ifZero w 0 16 (.finv (rdOf w) (raOf w))
  | 0x05 => ifZero w 0 16 (.fsqrt (rdOf w) (raOf w))
  | 0x06 => ifZero w 0 16 (.fred (rdOf w) (raOf w))
  | 0x07 => ifZero w 0 20 (.frand (rdOf w))
  | 0x10 => ifZero w 16 8 (.xmd (nOf w))
  | 0x11 => ifZero w 0 16 (.h2f (rdOf w) (raOf w))
  | 0x12 =>
    if (lenOf w).toNat ≤ Config.b2fMax then .ok (.b2f (rdOf w) (lenOf w) (offOf w))
    else .error (.reservedLength (lenOf w))
  | _ => .error (.undefinedOpcode (opcodeOf w))

/-- A register field: the register number itself, 4 bits (R84). -/
def regBits (r : Reg) : BitVec 4 := BitVec.ofFin r

/-- Format R: opcode, `rd`, `ra`, `rb`, twelve zero bits, from bit 31 down (R81, R86). -/
def formatR (opcode : BitVec 8) (rd ra rb : BitVec 4) : Word := opcode ++ rd ++ ra ++ rb ++ 0#12

/-- Format X: opcode, eight zero bits, `n` (R82, R86). -/
def formatX (opcode : BitVec 8) (n : BitVec 16) : Word := opcode ++ 0#8 ++ n

/-- Format B: opcode, `rd`, `len`, `off` (R83, R86). -/
def formatB (opcode : BitVec 8) (rd : BitVec 4) (len : BitVec 6) (off : BitVec 14) : Word := opcode ++ rd ++ len ++ off

/-- The encoder (R86). Fields a command does not use are zero (R89). -/
def encode : Instr → Word
  | .fmul rd ra rb => formatR 0x01#8 (regBits rd) (regBits ra) (regBits rb)
  | .montmul rd ra rb => formatR 0x02#8 (regBits rd) (regBits ra) (regBits rb)
  | .modpow rd ra rb => formatR 0x03#8 (regBits rd) (regBits ra) (regBits rb)
  | .finv rd ra => formatR 0x04#8 (regBits rd) (regBits ra) 0#4
  | .fsqrt rd ra => formatR 0x05#8 (regBits rd) (regBits ra) 0#4
  | .fred rd ra => formatR 0x06#8 (regBits rd) (regBits ra) 0#4
  | .frand rd => formatR 0x07#8 (regBits rd) 0#4 0#4
  | .xmd n => formatX 0x10#8 n
  | .h2f rd rd2 => formatR 0x11#8 (regBits rd) (regBits rd2) 0#4
  | .b2f rd len off => formatB 0x12#8 (regBits rd) len off

/-- The `match` pattern of the command's row of spec/opcode_table.json (R85). -/
def Instr.matchBits : Instr → Word
  | .fmul _ _ _ => 0x01000000#32
  | .montmul _ _ _ => 0x02000000#32
  | .modpow _ _ _ => 0x03000000#32
  | .finv _ _ => 0x04000000#32
  | .fsqrt _ _ => 0x05000000#32
  | .fred _ _ => 0x06000000#32
  | .frand _ => 0x07000000#32
  | .xmd _ => 0x10000000#32
  | .h2f _ _ => 0x11000000#32
  | .b2f _ _ _ => 0x12000000#32

/-- The `mask` pattern of the command's row of spec/opcode_table.json (R85). -/
def Instr.maskBits : Instr → Word
  | .fmul _ _ _ => 0xFF000FFF#32
  | .montmul _ _ _ => 0xFF000FFF#32
  | .modpow _ _ _ => 0xFF000FFF#32
  | .finv _ _ => 0xFF00FFFF#32
  | .fsqrt _ _ => 0xFF00FFFF#32
  | .fred _ _ => 0xFF00FFFF#32
  | .frand _ => 0xFF0FFFFF#32
  | .xmd _ => 0xFFFF0000#32
  | .h2f _ _ => 0xFF00FFFF#32
  | .b2f _ _ _ => 0xFF000000#32

/-- The instruction the decoder reads from a word whose bits are numbered as spec/opcode_table.json numbers them. Every
command is one 32-bit word (R80), the data of one CMD write, so no byte order enters. -/
def decodeTableWord (nbits w : Nat) : Option Instr :=
  match decode (BitVec.ofNat 32 (w % 2 ^ nbits)) with
  | .ok i => some i
  | .error _ => none

/-- The spelling of a register, `F0` to `F15` (R90). -/
def regName (r : Reg) : String := "F" ++ toString r.val

/-- The assembler spelling of a command (R90). -/
def Instr.asm : Instr → String
  | .fmul rd ra rb => "FMUL " ++ regName rd ++ ", " ++ regName ra ++ ", " ++ regName rb
  | .montmul rd ra rb => "MONTMUL " ++ regName rd ++ ", " ++ regName ra ++ ", " ++ regName rb
  | .modpow rd ra rb => "MODPOW " ++ regName rd ++ ", " ++ regName ra ++ ", " ++ regName rb
  | .finv rd ra => "FINV " ++ regName rd ++ ", " ++ regName ra
  | .fsqrt rd ra => "FSQRT " ++ regName rd ++ ", " ++ regName ra
  | .fred rd ra => "FRED " ++ regName rd ++ ", " ++ regName ra
  | .frand rd => "FRAND " ++ regName rd
  | .xmd n => "XMD " ++ toString n.toNat
  | .h2f rd rd2 => "H2F " ++ regName rd ++ ", " ++ regName rd2
  | .b2f rd len off => "B2F " ++ regName rd ++ ", " ++ toString len.toNat ++ ", " ++ toString off.toNat

end Sys2Proof
end

