-- ==== Sys2Proof/Machine/Bus.lean ====
section
/-! DEFINITION. The host bus (spec/20_memory.md): the address map, the checks of an access, the interlock, and what a read
returns and a write does at each offset. -/

namespace Sys2Proof.Machine

/-- A range of the address map (R51). -/
inductive Region where
  | id
  | ctrl
  | status
  | cmd
  | dstLen
  | msgLen
  /-- Word `j` of field register `F[k]` (R52). -/
  | field (k : Reg) (j : Fin 8)
  /-- A word of DST, MSG or OUT (R53). -/
  | buffer
  | unmapped
deriving DecidableEq, Repr

/-- The range a window offset falls in: decoded by the offset alone, without alias (R51, R57). -/
def regionOf (off : BitVec 14) : Region :=
  let o := off.toNat
  if o < 0x0004 then .id
  else if o < 0x0008 then .ctrl
  else if o < 0x000C then .status
  else if o < 0x0010 then .cmd
  else if o < 0x0014 then .dstLen
  else if o < 0x0018 then .msgLen
  else if o < 0x0200 then .unmapped
  else if o < 0x0400 then
    .field (Fin.ofNat 16 ((o - 0x0200) / 32)) (Fin.ofNat 8 ((o - 0x0200) % 32 / 4))
  else if o < 0x0500 then .buffer
  else if o < 0x1000 then .unmapped
  else .buffer

/-- Accesses of the range are held while BUSY (R51, R61, R62). -/
def Region.interlocked : Region → Bool
  | .id => false
  | .ctrl => false
  | .status => false
  | .cmd => true
  | .dstLen => true
  | .msgLen => true
  | .field _ _ => true
  | .buffer => true
  | .unmapped => false

/-- The access is one aligned, whole, single word at a mapped offset (R55, R56, R57); any other ends with a bus error. -/
def Access.valid (a : Access) : Bool :=
  a.off.toNat % 4 == 0 && a.enables == 0xF#4 && a.beats == 1 && regionOf a.off != .unmapped

/-- The access is held while BUSY. The checks of R55 to R57 come first, so an erroneous access never is (R58, R61). -/
def Access.interlocked (a : Access) : Bool := a.valid && (regionOf a.off).interlocked

/-- `BusRead(off)` as a well-formed access (R50). -/
def Access.readAt (off : BitVec 14) : Access := ⟨.read, off, 0xF#4, 1⟩

/-- `BusWrite(off, v)` as a well-formed access (R50). -/
def Access.writeAt (off : BitVec 14) (v : Word) : Access := ⟨.write v, off, 0xF#4, 1⟩

/-- The eight writes of a 256-bit value to a field register, word 0 first (R90 `WF`). -/
def Access.writeField (k : Reg) (v : FieldWord) : List Access :=
  (List.finRange 8).map fun j => .writeAt (BitVec.ofNat 14 (Config.fieldBase + 32 * k.val + 4 * j.val)) (readSlice v j)

/-- The window offset of a platform address, for the platform's window base `base`; the block does not decode an address
outside its window (R8 `BASE`, R50). -/
def windowOffset (base addr : Nat) : Option (BitVec 14) :=
  if base ≤ addr ∧ addr < base + Config.window then some (BitVec.ofNat 14 (addr - base)) else none

/-- The word a read returns, the whole of it as this state holds it (R60). Reserved bits read as 0 (R25). -/
def State.readWord (s : State) (off : BitVec 14) : Word :=
  match regionOf off with
  | .id => Config.idWord
  | .ctrl => s.ctrlWord
  | .status => s.statusWord
  | .cmd => s.cmd
  | .dstLen => s.dstLen.setWidth 32
  | .msgLen => s.msgLen.setWidth 32
  | .field k j => readSlice (s.reg k) j
  | .buffer => packWord (s.byte off.toNat) (s.byte (off.toNat + 1)) (s.byte (off.toNat + 2)) (s.byte (off.toNat + 3))
  | .unmapped => 0#32

/-- What a write of `v` does (R26 to R33, R52, R53). A write to CMD is the acceptance of `v` (R29). -/
def State.writeWord (s : State) (off : BitVec 14) (v : Word) : State :=
  match regionOf off with
  | .id => s
  | .ctrl => s.writeCtrl v
  | .status => s.writeStatus v
  | .cmd => s.accept v
  | .dstLen => { s with dstLen := v.setWidth 16 }
  | .msgLen => { s with msgLen := v.setWidth 16 }
  | .field k j => s.setReg k (writeSlice (s.reg k) j v)
  | .buffer => { s with mem := s.mem.writeBytes off.toNat (unpackWord v) }
  | .unmapped => s

/-- The access ends with this response (R50). -/
def State.respond (s : State) (a : Access) (r : BusResponse) : State := { s with busLog := s.busLog ++ [⟨a, r⟩] }

/-- The access is performed: a bus error changes no state (R58), a read has no side effect (R59), a write does what its
offset says. -/
def State.perform (s : State) (a : Access) : State :=
  if a.valid then
    match a.op with
    | .read => s.respond a (.data (s.readWord a.off))
    | .write v => (s.writeWord a.off v).respond a .done
  else s.respond a .error

end Sys2Proof.Machine
end

