-- ==== Sys2Proof/Machine/Engine.lean ====
section
/-! DEFINITION. Who moves next (spec/00_scope.md R14; spec/70_reset_and_hazards.md R249): the host's access, the
engine's completion, a reset, or nobody; the interlock between the first two (spec/20_memory.md R61, R62); and the port
transactions of the command in flight (spec/41_message_expansion.md R143, R148; R112, R242). -/

namespace Sys2Proof.Machine

/-- The hash calls of an expansion of `n` bytes, if its checks pass; none before a failed check (R143, R146). -/
def State.expansionCalls (s : State) (n : Nat) : List PortTransaction :=
  match s.checkExpansion n with
  | .ok _ => (s.expand n).calls.map .hash
  | .error _ => []

/-- The port transactions a command makes from this state, in order (R112, R143, R148, R214). -/
def State.portCalls (s : State) : Instr → List PortTransaction
  | .fmul _ _ _ => []
  | .montmul _ _ _ => []
  | .modpow _ _ _ => []
  | .finv _ _ => []
  | .fsqrt _ _ => []
  | .fred _ _ => []
  | .frand _ => [.entropy s.draws]
  | .xmd n => s.expansionCalls n.toNat
  | .h2f _ _ => s.expansionCalls (Config.count * Config.chunk)
  | .b2f _ _ _ => []

/-- The port transactions of the command word `w`; an illegal word makes none (R87). -/
def State.wordCalls (s : State) (w : Word) : List PortTransaction :=
  match decode w with
  | .ok i => s.portCalls i
  | .error _ => []

/-- The port a transaction is made on. -/
def PortTransaction.port : PortTransaction → Port
  | .hash _ => .hash
  | .entropy _ => .entropy

/-- The stuck state of a command that waits on a collaborator that never answers, once nothing more can reach the block
(spec/93_implementation_defined.md U6, U7). -/
def Port.silentFault : Port → Fault
  | .hash => .hashPortSilent
  | .entropy => .entropyPortSilent

/-- The command word `w` waits on this port. -/
def State.waitsOn (s : State) (w : Word) (port : Port) : Bool := (s.wordCalls w).any fun c => c.port == port

/-- What the next step is. -/
inductive Turn where
  /-- A reset pulse (R240). -/
  | reset (pulse : ResetPulse)
  /-- From here on the command in flight waits for good on this port (U6, U7). -/
  | hang (port : Port)
  /-- The command in flight waits for good, and nothing more can reach the block (U6, U7). -/
  | stuck (fault : Fault)
  /-- The engine completes the command word in flight (R215). -/
  | run (w : Word)
  /-- The access held until now is performed (R61). -/
  | release (a : Access)
  /-- The access the host issues is held (R61). -/
  | hold (a : Access)
  /-- The access the host issues is performed at once (R61, R62). -/
  | perform (a : Access)
  /-- The event says nothing in this state. -/
  | skip
  /-- Nothing reaches the block and no command is in flight: it keeps all its state (R227). -/
  | idle
deriving DecidableEq, Repr

/-- An access the host issues while a command is in flight and none is held (R61, R62). -/
def Access.turn (a : Access) : Turn := if a.interlocked then .hold a else .perform a

/-- The next step with a command word `w` in flight whose answers all come. While an access is held the host issues no
other (R63 (a)), so the completion comes first; when nothing more reaches the block, the completion comes (R250). -/
def State.turnBusy (s : State) (w : Word) : Turn :=
  match s.agenda, s.held with
  | [], _ => .run w
  | .complete :: _, _ => .run w
  | .reset pulse :: _, _ => .reset pulse
  | .silent port :: _, _ => if s.waitsOn w port then .hang port else .skip
  | .access _ :: _, some _ => .run w
  | .access a :: _, none => a.turn

/-- The next step with a command in flight that waits for good on a port: its completion never comes, but the host still
reaches ID, CTRL and STATUS (R62), and a reset abandons it (R242). While an access is held the host issues no other. -/
def State.turnHung (s : State) (port : Port) : Turn :=
  match s.agenda, s.held with
  | [], _ => .stuck port.silentFault
  | .complete :: _, _ => .skip
  | .reset pulse :: _, _ => .reset pulse
  | .silent _ :: _, _ => .skip
  | .access _ :: _, some _ => .stuck port.silentFault
  | .access a :: _, none => a.turn

/-- The next step with no command in flight. A held access is performed just after the completion (R61). -/
def State.turnIdle (s : State) : Turn :=
  match s.agenda, s.held with
  | .reset pulse :: _, _ => .reset pulse
  | _, some a => .release a
  | [], none => .idle
  | .access a :: _, none => .perform a
  | .complete :: _, none => .skip
  | .silent _ :: _, none => .skip

/-- The next step. -/
def State.turn (s : State) : Turn :=
  match s.inflight, s.hung with
  | some w, none => s.turnBusy w
  | some _, some port => s.turnHung port
  | none, _ => s.turnIdle

/-- The earliest event has happened. -/
def State.dropEvent (s : State) : State := { s with agenda := s.agenda.tail }

/-- The completion has happened: an event that called for it is used up. -/
def State.dropCompletion (s : State) : State :=
  match s.agenda with
  | .complete :: rest => { s with agenda := rest }
  | _ => s

/-- The access is held: no response yet (R61). -/
def State.hold (s : State) (a : Access) : State := { s with held := some a }

/-- The command in flight waits for good on this port (U6, U7). -/
def State.hang (s : State) (port : Port) : State := { s with hung := some port }

/-- The access held until now is performed, against the state the completion left (R61). -/
def State.release (s : State) (a : Access) : State := State.perform { s with held := none } a

/-- The port transactions of the command in flight. -/
def State.inflightCalls (s : State) : List PortTransaction :=
  match s.inflight with
  | some w => s.wordCalls w
  | none => []

/-- The command in flight is abandoned after its first `started` port transactions (R242). -/
def State.abandon (s : State) (started : Nat) : State :=
  let made := s.inflightCalls.take started
  { s with portLog := s.portLog ++ made, draws := s.draws + made.countP fun c => c.port == .entropy }

/-- The reset pulse reaches the block (R240 to R242). -/
def State.takeReset (s : State) (pulse : ResetPulse) : State := (s.abandon pulse.started).applyReset pulse

/-- The state in which the command word of these bits has just been accepted and its completion is due: CMD and
`inflight` are the word (R216), and the earliest event is the completion. -/
def State.withCommand (s : State) (w : Word) : State := { s.accept w with agenda := .complete :: s.agenda }

end Sys2Proof.Machine
end

