-- ==== Sys2Proof/Machine/Step.lean ====
section
/-! DEFINITION. One step of the block: the engine's completion of the command in flight, one host access, one reset pulse,
or nothing (spec/70_reset_and_hazards.md R249). The block has no program counter (spec/10_state.md R24): the next
instruction is the command word in flight. -/

namespace Sys2Proof.Machine

/-- The engine completes the command word `w`: a legal word as its rule says, an illegal one with error 1 (R87, R216). -/
def runCommand (w : Word) (s : State) : Host.Outcome State Fault Refusal :=
  match decode w with
  | .ok i => exec i s.dropCompletion
  | .error _ => finish s.dropCompletion (.error .illegal)

/-- One step. -/
def step (s : State) : Host.Outcome State Fault Refusal :=
  match s.turn with
  | .reset pulse => .next (s.dropEvent.takeReset pulse)
  | .hang port => .next (s.dropEvent.hang port)
  | .stuck fault => .fault fault
  | .run w => runCommand w s
  | .release a => .next (s.release a)
  | .hold a => .next (s.dropEvent.hold a)
  | .perform a => .next (s.dropEvent.perform a)
  | .skip => .next s.dropEvent
  | .idle => .next s

/-- `s` with the instruction whose bits are `w`, numbered as spec/opcode_table.json numbers them, placed where the next
step takes its instruction: it has just been accepted, and its completion comes next. -/
def State.withFetchWord (s : State) (nbits w : Nat) : State := s.withCommand (BitVec.ofNat 32 (w % 2 ^ nbits))

end Sys2Proof.Machine
end

