-- ==== Sys2Proof/Safety.lean ====
section
/-! DEFINITION. The terms in which claims about the block are made: the invariant every step keeps, what a completed command
leaves unchanged, which error a command reports, and which places it may write (spec/10_state.md R22, R23;
spec/60_exceptions.md R212 to R215). -/

namespace Sys2Proof.Safety

open Sys2Proof.Machine

/-- The value is canonical, in `[0, p)` (spec/00_scope.md R15). -/
abbrev Canonical (v : FieldWord) : Prop := v.toNat < Config.p

/-- The invariant of the block: the buffers are in canonical form, CMD holds the command word in flight (R38, R216), only a
well-formed access of an interlocked range is held (spec/20_memory.md R58, R61), and only a command in flight waits on a
collaborator for good (spec/70_reset_and_hazards.md R250). -/
structure Inv (s : State) : Prop where
  buffers  : s.mem.wf
  inflight : ∀ w, s.inflight = some w → s.cmd = w
  held     : ∀ a, s.held = some a → a.interlocked = true
  hung     : s.hung.isSome = true → s.inflight.isSome = true

/-- What a successful completion writes to STATUS beside the command's own results, and what it leaves (R215). -/
structure Succeeded (s t : State) : Prop where
  done     : t.done = true
  lastErr  : t.lastErr = .none
  inflight : t.inflight = none
  errSeen  : t.errSeen = s.errSeen

/-- CTRL, CMD, the lengths, and the bus side are unchanged. -/
structure SameControl (s t : State) : Prop where
  ie     : t.ie = s.ie
  cmd    : t.cmd = s.cmd
  dstLen : t.dstLen = s.dstLen
  msgLen : t.msgLen = s.msgLen
  held   : t.held = s.held
  hung   : t.hung = s.hung
  agenda : t.agenda = s.agenda
  busLog : t.busLog = s.busLog

/-- No transaction was made on the hash port or the entropy port. -/
structure NoPortCall (s t : State) : Prop where
  portLog : t.portLog = s.portLog
  draws   : t.draws = s.draws

/-- Every byte of DST, MSG and OUT reads as before. -/
def SameBuffers (s t : State) : Prop := ∀ a, t.byte a = s.byte a

/-- Every field register but those listed is unchanged. -/
def SameRegsBut (dests : List Reg) (s t : State) : Prop := ∀ k, k ∉ dests → t.reg k = s.reg k

/-- The command succeeded, wrote the value `v` to `F[rd]`, and changed nothing else but STATUS; FOUND and the ports are
left to the statement that uses this. -/
structure WroteField (s t : State) (rd : Reg) (v : Nat) : Prop where
  value     : (t.reg rd).toNat = v
  succeeded : Succeeded s t
  regs      : SameRegsBut [rd] s t
  buffers   : SameBuffers s t
  control   : SameControl s t

/-- The state after an error completion with code `e`: STATUS and `inflight` alone differ (R214). -/
def failed (s : State) (e : ErrCode) : State :=
  { s with lastErr := e, errSeen := true, done := true, inflight := none }

/-- The error a command reports: the first that applies, in the order of R212; none if it succeeds. The word is legal,
so Illegal can only be a B2F length that decoding has let pass. -/
def firstError (i : Instr) (s : State) : ErrCode :=
  let firstOf (checks : List (Bool × ErrCode)) : ErrCode := ((checks.find? fun c => c.1).map Prod.snd).getD .none
  let notBelowP (r : Reg) : Bool := Config.p ≤ (s.reg r).toNat
  match i with
  | .fmul _ ra rb => firstOf [(notBelowP ra, .nonCanonical), (notBelowP rb, .nonCanonical)]
  | .montmul _ ra rb => firstOf [(notBelowP ra, .nonCanonical), (notBelowP rb, .nonCanonical)]
  | .modpow _ _ _ => .none
  | .finv _ ra => firstOf [(notBelowP ra, .nonCanonical), (s.reg ra == 0#256, .divisionByZero)]
  | .fsqrt _ ra => firstOf [(notBelowP ra, .nonCanonical)]
  | .fred _ _ => .none
  | .frand _ => .none
  | .xmd n => firstOf [(255 < s.dstLen.toNat, .invalidDomainLength), (4096 < s.msgLen.toNat, .bounds),
      (8160 < n.toNat, .outputLength), (8192 < n.toNat, .bounds)]
  | .h2f _ _ => firstOf [(255 < s.dstLen.toNat, .invalidDomainLength), (4096 < s.msgLen.toNat, .bounds)]
  | .b2f _ len off => firstOf [(48 < len.toNat, .illegal), (8192 < off.toNat + len.toNat, .bounds)]

/-- The field registers a command may write (R22). -/
def destinations : Instr → List Reg
  | .fmul rd _ _ => [rd]
  | .montmul rd _ _ => [rd]
  | .modpow rd _ _ => [rd]
  | .finv rd _ => [rd]
  | .fsqrt rd _ => [rd]
  | .fred rd _ => [rd]
  | .frand rd => [rd]
  | .xmd _ => []
  | .h2f rd rd2 => [rd, rd2]
  | .b2f rd _ _ => [rd]

/-- How many OUT bytes, from `OUT[0]` up, a command may write (R22, R36). -/
def outWritten : Instr → Nat
  | .fmul _ _ _ => 0
  | .montmul _ _ _ => 0
  | .modpow _ _ _ => 0
  | .finv _ _ => 0
  | .fsqrt _ _ => 0
  | .fred _ _ => 0
  | .frand _ => 0
  | .xmd n => n.toNat
  | .h2f _ _ => 96
  | .b2f _ _ _ => 0

/-- The rows of the opcode map, `match` and `mask` (spec/30_encoding.md R85). -/
def opcodeRows : List (Word × Word) :=
  [(0x01000000#32, 0xFF000FFF#32), (0x02000000#32, 0xFF000FFF#32), (0x03000000#32, 0xFF000FFF#32),
   (0x04000000#32, 0xFF00FFFF#32), (0x05000000#32, 0xFF00FFFF#32), (0x06000000#32, 0xFF00FFFF#32),
   (0x07000000#32, 0xFF0FFFFF#32), (0x10000000#32, 0xFFFF0000#32), (0x11000000#32, 0xFF00FFFF#32),
   (0x12000000#32, 0xFF000000#32)]

/-- The word is illegal (spec/30_encoding.md R87): (a) an opcode that is none of the ten, (b) a non-zero must-be-zero
field, or (c) a B2F with `len` over 48. The fields are taken by arithmetic on the word as one number. -/
abbrev IllegalWord (w : Word) : Prop :=
  w.toNat / 2 ^ 24 ∉ [0x01, 0x02, 0x03, 0x04, 0x05, 0x06, 0x07, 0x10, 0x11, 0x12] ∨
  (w.toNat / 2 ^ 24 ∈ [0x01, 0x02, 0x03] ∧ w.toNat % 2 ^ 12 ≠ 0) ∨
  (w.toNat / 2 ^ 24 ∈ [0x04, 0x05, 0x06, 0x11] ∧ w.toNat % 2 ^ 16 ≠ 0) ∨
  (w.toNat / 2 ^ 24 = 0x07 ∧ w.toNat % 2 ^ 20 ≠ 0) ∨
  (w.toNat / 2 ^ 24 = 0x10 ∧ w.toNat / 2 ^ 16 % 2 ^ 8 ≠ 0) ∨
  (w.toNat / 2 ^ 24 = 0x12 ∧ 48 < w.toNat / 2 ^ 14 % 2 ^ 6)

/-- The command word of Format R with these field values, as one number (spec/30_encoding.md R81). -/
def formatRWord (opcode rd ra rb : Nat) : Word := BitVec.ofNat 32 (opcode * 2 ^ 24 + rd * 2 ^ 20 + ra * 2 ^ 16 + rb * 2 ^ 12)

/-- `b[j + 1]` of an expansion, by the recurrence of spec/41_message_expansion.md R142 alone, from `b[0]`. -/
def blockAfter (H : List Byte → List Byte) (dst b0 : List Byte) : Nat → List Byte
  | 0 => H (b0 ++ i2osp 1 1 ++ (dst ++ i2osp dst.length 1))
  | j + 1 => H (strxor b0 (blockAfter H dst b0 j) ++ i2osp (j + 2) 1 ++ (dst ++ i2osp dst.length 1))

/-- A hash as the hash port gives it: every digest has 32 bytes (R148). -/
def Digests32 (H : List Byte → List Byte) : Prop := ∀ x, (H x).length = 32

/-- What is observed of a host program's run: the architectural state and the sequence of port transactions
(spec/70_reset_and_hazards.md R252). -/
structure Observation where
  fregs   : Vector FieldWord 16
  ctrl    : Word
  status  : Word
  cmd     : Word
  dstLen  : BitVec 16
  msgLen  : BitVec 16
  buffers : Memory
  portLog : List PortTransaction
deriving DecidableEq, Repr

/-- The observation of a state (R252). -/
def observe (s : State) : Observation where
  fregs   := s.fregs
  ctrl    := s.ctrlWord
  status  := s.statusWord
  cmd     := s.cmd
  dstLen  := s.dstLen
  msgLen  := s.msgLen
  buffers := s.mem
  portLog := s.portLog

/-- A state that ends a host program's run: the host has made its last access, which got its response, and no command is
in flight (R252). What the platform does to the block afterwards, a reset among it, is no access of the host. -/
structure RunEnded (s : State) : Prop where
  inflight : s.inflight = none
  held     : s.held = none
  accesses : s.agenda.all (fun e => !e.isAccess) = true

/-- The run of a host program from `s` ends after `n` steps, in `t`: the first state that ends it (R252). What is observed of
the run is `observe t`. -/
structure RunEndsAt (s : State) (n : Nat) (t : State) : Prop where
  reached : Sys2Proof.core.run n s = .next t
  ended   : RunEnded t
  first   : ∀ m u, m < n → Sys2Proof.core.run m s = .next u → ¬ RunEnded u

/-- The port on which the rule of a command makes transactions, if any (R112, R143). -/
def portOf : Instr → Option Port
  | .fmul _ _ _ => none
  | .montmul _ _ _ => none
  | .modpow _ _ _ => none
  | .finv _ _ => none
  | .fsqrt _ _ => none
  | .fred _ _ => none
  | .frand _ => some .entropy
  | .xmd _ => some .hash
  | .h2f _ _ => some .hash
  | .b2f _ _ _ => none

end Sys2Proof.Safety
end

