-- ==== Sys2Proof/Certificates/Slice0/Obligations.lean ====
section
/-! DEFINITION. The statements about the block, for the provers. Each docstring names the rule of spec/ it formalises. No
statement rests on what the reset values of the field registers or the unlisted byte are (log entries 1 and 2), nor on a
value of the entropy port (log entry 3). -/

open Sys2Proof Sys2Proof.Machine Sys2Proof.Safety

/-! ### Encoding (spec/30_encoding.md) -/

/-- The words the spec writes out for one command of each row: R86 and the examples of R104 to R110, R147, R170, R171. -/
def Obligations.ExampleWordsEncodeAndDecode : Prop :=
  ∀ c ∈ ([(.fmul 3 1 2, 0x01312000#32), (.montmul 3 1 2, 0x02312000#32), (.modpow 3 1 2, 0x03312000#32),
      (.finv 2 1, 0x04210000#32), (.fsqrt 2 1, 0x05210000#32), (.fred 2 1, 0x06210000#32), (.frand 4, 0x07400000#32),
      (.xmd 96, 0x10000060#32), (.h2f 0 1, 0x11010000#32), (.b2f 3 48 48, 0x123C0030#32)] : List (Instr × Word)),
    encode c.1 = c.2 ∧ decode c.2 = .ok c.1

/-- R86: the encoding of every command, as shifts and ORs of its field values. -/
def Obligations.EncodingIsShiftedFields : Prop :=
  (∀ rd ra rb : Reg,
    (encode (.fmul rd ra rb)).toNat = 0x01 <<< 24 ||| rd.val <<< 20 ||| ra.val <<< 16 ||| rb.val <<< 12 ∧
    (encode (.montmul rd ra rb)).toNat = 0x02 <<< 24 ||| rd.val <<< 20 ||| ra.val <<< 16 ||| rb.val <<< 12 ∧
    (encode (.modpow rd ra rb)).toNat = 0x03 <<< 24 ||| rd.val <<< 20 ||| ra.val <<< 16 ||| rb.val <<< 12) ∧
  (∀ rd ra : Reg,
    (encode (.finv rd ra)).toNat = 0x04 <<< 24 ||| rd.val <<< 20 ||| ra.val <<< 16 ∧
    (encode (.fsqrt rd ra)).toNat = 0x05 <<< 24 ||| rd.val <<< 20 ||| ra.val <<< 16 ∧
    (encode (.fred rd ra)).toNat = 0x06 <<< 24 ||| rd.val <<< 20 ||| ra.val <<< 16 ∧
    (encode (.h2f rd ra)).toNat = 0x11 <<< 24 ||| rd.val <<< 20 ||| ra.val <<< 16) ∧
  (∀ rd : Reg, (encode (.frand rd)).toNat = 0x07 <<< 24 ||| rd.val <<< 20) ∧
  (∀ n : BitVec 16, (encode (.xmd n)).toNat = 0x10 <<< 24 ||| n.toNat) ∧
  (∀ (rd : Reg) (len : BitVec 6) (off : BitVec 14),
    (encode (.b2f rd len off)).toNat = 0x12 <<< 24 ||| rd.val <<< 20 ||| len.toNat <<< 14 ||| off.toNat)

/-- Decoding the encoding of any well-formed command gives it back, every operand at every value (R81 to R86). -/
def Obligations.DecodeOfEncode : Prop := ∀ i : Instr, i.wellFormed = true → decode (encode i) = .ok i

/-- A word that decodes to a command is that command's encoding, and the command is well formed: no two words share a
meaning (R80 to R86, R89). -/
def Obligations.EncodeOfDecode : Prop :=
  ∀ (w : Word) (i : Instr), decode w = .ok i → i.wellFormed = true ∧ encode i = w

/-- R88 (with the rows of R85): the legal words are those a row selects under its full mask, but for a B2F with `len` over
48; every other word is refused, the all-zero word among them. -/
def Obligations.LegalWordsAreTheRowsWords : Prop :=
  (∀ w : Word, (∃ i, decode w = .ok i) ↔
    (∃ row ∈ opcodeRows, w &&& row.2 = row.1) ∧
      ¬ (w &&& 0xFF000000#32 = 0x12000000#32 ∧ 48 < w.toNat / 2 ^ 14 % 2 ^ 6)) ∧
  ¬ ∃ i, decode 0x00000000#32 = .ok i

/-- R87: an illegal word, by any of the three conditions, completes with error 1 and changes nothing but STATUS, whatever
the operands hold. -/
def Obligations.IllegalWordCompletesWithErrorOne : Prop :=
  ∀ (s : State) (w : Word), IllegalWord w → s.turn = .run w → step s = .next (failed s.dropCompletion .illegal)

/-! ### Steps, acceptance and completion (spec/60_exceptions.md) -/

/-- A step runs the decoded command: with a legal word in flight, the step that completes it is `exec` of the command on
the state; what is around it is that a `complete` event is used up. The completion comes when nothing more reaches the
block, when an event calls for it, or when a held access waits for it (unless the command waits for good on a collaborator
that never answers, `hung`). -/
def Obligations.StepRunsDecodedCommand : Prop :=
  ∀ (s : State) (w : Word) (i : Instr), s.inflight = some w → s.hung = none → decode w = .ok i →
    (s.agenda = [] → step s = exec i s) ∧
    (∀ rest, s.agenda = .complete :: rest → step s = exec i { s with agenda := rest }) ∧
    (∀ a rest h, s.agenda = .access a :: rest → s.held = some h → step s = exec i s)

/-- The word of a well-formed command, placed for the next step, runs as that command on the state its acceptance
leaves. -/
def Obligations.PlacedCommandRunsNext : Prop :=
  ∀ (s : State) (i : Instr), i.wellFormed = true →
    step (s.withFetchWord 32 (encode i).toNat) = exec i (s.accept (encode i))

/-- R216: a CMD write with no command in flight is the acceptance of its word: CMD and `inflight` take it, BUSY reads 1,
and nothing else of the block changes; then the word is decoded and its rule computed on that state. -/
def Obligations.CmdWriteAcceptsCommand : Prop :=
  ∀ (s : State) (w : Word) (rest : List Event), s.inflight = none → s.held = none →
    s.agenda = .access (.writeAt 0x000C#14 w) :: rest →
    ∃ t, step s = .next t ∧
      t = { s with agenda := rest, cmd := w, inflight := some w, hung := none,
                   busLog := s.busLog ++ [⟨.writeAt 0x000C#14 w, .done⟩] } ∧
      (t.readWord 0x0008#14).getLsbD 0 = true ∧
      (∀ i, decode w = .ok i → rest = [] → step t = exec i t) ∧
      (∀ e, decode w = .error e → rest = [] → step t = .next (failed t .illegal))

/-- R215 and R250: with nothing more reaching the block and every answer given, every command in flight, legal or not,
completes in the next step: BUSY falls, DONE is set, and LASTERR and ERRSEEN tell success from error. -/
def Obligations.InflightCommandCompletes : Prop :=
  ∀ (s : State) (w : Word), s.inflight = some w → s.hung = none → s.agenda = [] →
    ∃ t, step s = .next t ∧ t.inflight = none ∧ t.done = true ∧
      ((t.lastErr = .none ∧ t.errSeen = s.errSeen) ∨ (t.lastErr ≠ .none ∧ t.errSeen = true))

/-- R212: a command reports the first error that applies, in the rule's order, and then changes nothing but STATUS, so it
has made no port transaction; it succeeds exactly when no error applies. Illegal comes before everything. -/
def Obligations.CommandReportsFirstError : Prop :=
  (∀ (w : Word) (e : DecodeError) (s : State), decode w = .error e →
    runCommand w s = .next (failed s.dropCompletion .illegal)) ∧
  (∀ (i : Instr) (s : State),
    (firstError i s ≠ .none → exec i s = .next (failed s (firstError i s))) ∧
    (firstError i s = .none → ∃ t, exec i s = .next t ∧ Succeeded s t))

/-! ### Field arithmetic (spec/40_field_arithmetic.md) -/

/-- R104: FMUL. -/
def Obligations.FmulWritesProduct : Prop :=
  (∀ (rd ra rb : Reg) (s : State), Canonical (s.reg ra) → Canonical (s.reg rb) →
    ∃ t, exec (.fmul rd ra rb) s = .next t ∧
      WroteField s t rd ((s.reg ra).toNat * (s.reg rb).toNat % Config.p) ∧ t.found = s.found ∧ NoPortCall s t) ∧
  (∀ (rd ra rb : Reg) (s : State), ¬ Canonical (s.reg ra) ∨ ¬ Canonical (s.reg rb) →
    exec (.fmul rd ra rb) s = .next (failed s .nonCanonical)) ∧
  (∀ rd ra rb : Reg, decode (formatRWord 0x01 rd ra rb) = .ok (.fmul rd ra rb)) ∧
  (∀ (w : Word) (s : State), w.toNat / 2 ^ 24 = 0x01 → w.toNat % 2 ^ 12 ≠ 0 →
    runCommand w s = .next (failed s.dropCompletion .illegal))

/-- R105: MONTMUL. -/
def Obligations.MontmulWritesMontgomeryProduct : Prop :=
  (Config.rInv < Config.p ∧ 2 ^ 256 * Config.rInv % Config.p = 1) ∧
  (∀ (rd ra rb : Reg) (s : State), Canonical (s.reg ra) → Canonical (s.reg rb) →
    ∃ t, exec (.montmul rd ra rb) s = .next t ∧
      WroteField s t rd ((s.reg ra).toNat * (s.reg rb).toNat * Config.rInv % Config.p) ∧ t.found = s.found ∧
      NoPortCall s t) ∧
  (∀ (rd ra rb : Reg) (s : State), ¬ Canonical (s.reg ra) ∨ ¬ Canonical (s.reg rb) →
    exec (.montmul rd ra rb) s = .next (failed s .nonCanonical)) ∧
  (∀ rd ra rb : Reg, decode (formatRWord 0x02 rd ra rb) = .ok (.montmul rd ra rb)) ∧
  (∀ (w : Word) (s : State), w.toNat / 2 ^ 24 = 0x02 → w.toNat % 2 ^ 12 ≠ 0 →
    runCommand w s = .next (failed s.dropCompletion .illegal))

/-- The corner cases of R105: MONTMUL with `R2_MOD_P` goes into Montgomery form, and with 1 out of it. -/
def Obligations.MontmulIntoAndOutOfMontgomeryForm : Prop :=
  (∀ (rd ra rb : Reg) (s : State), Canonical (s.reg ra) → (s.reg rb).toNat = Config.r2ModP →
    ∃ t, exec (.montmul rd ra rb) s = .next t ∧ (t.reg rd).toNat = (s.reg ra).toNat * 2 ^ 256 % Config.p) ∧
  (∀ (rd ra rb : Reg) (s : State), Canonical (s.reg ra) → (s.reg rb).toNat = 1 →
    ∃ t, exec (.montmul rd ra rb) s = .next t ∧ (t.reg rd).toNat * 2 ^ 256 % Config.p = (s.reg ra).toNat)

/-- R103: the square-and-multiply loop computes the power, with `0^0 = 1`. -/
def Obligations.ModPowIsPower : Prop :=
  ∀ (b : Nat) (e : FieldWord), modPow b e = (b % Config.p) ^ e.toNat % Config.p

/-- R106: MODPOW, on every base and every exponent. -/
def Obligations.ModpowWritesPower : Prop :=
  (∀ (rd ra rb : Reg) (s : State),
    ∃ t, exec (.modpow rd ra rb) s = .next t ∧
      WroteField s t rd (((s.reg ra).toNat % Config.p) ^ (s.reg rb).toNat % Config.p) ∧ t.found = s.found ∧
      NoPortCall s t) ∧
  (∀ rd ra rb : Reg, decode (formatRWord 0x03 rd ra rb) = .ok (.modpow rd ra rb)) ∧
  (∀ (w : Word) (s : State), w.toNat / 2 ^ 24 = 0x03 → w.toNat % 2 ^ 12 ≠ 0 →
    runCommand w s = .next (failed s.dropCompletion .illegal))

/-- R107: FINV. -/
def Obligations.FinvWritesInverse : Prop :=
  (∀ (rd ra : Reg) (s : State), Canonical (s.reg ra) → (s.reg ra).toNat ≠ 0 →
    ∃ t, exec (.finv rd ra) s = .next t ∧
      WroteField s t rd ((s.reg ra).toNat ^ (Config.p - 2) % Config.p) ∧ t.found = s.found ∧ NoPortCall s t ∧
      (s.reg ra).toNat * (t.reg rd).toNat % Config.p = 1) ∧
  (∀ (rd ra : Reg) (s : State), ¬ Canonical (s.reg ra) → exec (.finv rd ra) s = .next (failed s .nonCanonical)) ∧
  (∀ (rd ra : Reg) (s : State), (s.reg ra).toNat = 0 → exec (.finv rd ra) s = .next (failed s .divisionByZero)) ∧
  (∀ rd ra : Reg, decode (formatRWord 0x04 rd ra 0) = .ok (.finv rd ra)) ∧
  (∀ (w : Word) (s : State), w.toNat / 2 ^ 24 = 0x04 → w.toNat % 2 ^ 16 ≠ 0 →
    runCommand w s = .next (failed s.dropCompletion .illegal))

/-- R108: FSQRT. FOUND tells whether the candidate is a root, and that is so exactly when the operand is a square. -/
def Obligations.FsqrtWritesCandidateAndFound : Prop :=
  (∀ (rd ra : Reg) (s : State), Canonical (s.reg ra) →
    ∃ t, exec (.fsqrt rd ra) s = .next t ∧
      WroteField s t rd ((s.reg ra).toNat ^ ((Config.p + 1) / 4) % Config.p) ∧ NoPortCall s t ∧
      (t.found = true ↔ (t.reg rd).toNat * (t.reg rd).toNat % Config.p = (s.reg ra).toNat) ∧
      (t.found = true ↔ ∃ x, x < Config.p ∧ x * x % Config.p = (s.reg ra).toNat)) ∧
  (∀ (rd ra : Reg) (s : State), ¬ Canonical (s.reg ra) → exec (.fsqrt rd ra) s = .next (failed s .nonCanonical)) ∧
  (∀ rd ra : Reg, decode (formatRWord 0x05 rd ra 0) = .ok (.fsqrt rd ra)) ∧
  (∀ (w : Word) (s : State), w.toNat / 2 ^ 24 = 0x05 → w.toNat % 2 ^ 16 ≠ 0 →
    runCommand w s = .next (failed s.dropCompletion .illegal))

/-- R109: FRED, on every operand; the result differs from it by 0 to 5 times `p`. -/
def Obligations.FredWritesRemainder : Prop :=
  (∀ (rd ra : Reg) (s : State),
    ∃ t, exec (.fred rd ra) s = .next t ∧ WroteField s t rd ((s.reg ra).toNat % Config.p) ∧ t.found = s.found ∧
      NoPortCall s t ∧ ∃ k ≤ 5, (t.reg rd).toNat + k * Config.p = (s.reg ra).toNat) ∧
  (∀ rd ra : Reg, decode (formatRWord 0x06 rd ra 0) = .ok (.fred rd ra)) ∧
  (∀ (w : Word) (s : State), w.toNat / 2 ^ 24 = 0x06 → w.toNat % 2 ^ 16 ≠ 0 →
    runCommand w s = .next (failed s.dropCompletion .illegal))

/-- R110 and R112: FRAND makes one entropy transaction and reduces its 32 bytes. The bytes are the free value of log entry
3; the statement holds for every draw. -/
def Obligations.FrandWritesReducedEntropy : Prop :=
  (∀ (rd : Reg) (s : State),
    ∃ t, exec (.frand rd) s = .next t ∧
      WroteField s t rd (os2ip (Config.entropy32 s.draws).toList % Config.p) ∧ t.found = s.found ∧
      t.portLog = s.portLog ++ [.entropy s.draws] ∧ t.draws = s.draws + 1) ∧
  (∀ rd : Reg, decode (formatRWord 0x07 rd 0 0) = .ok (.frand rd)) ∧
  (∀ (w : Word) (s : State), w.toNat / 2 ^ 24 = 0x07 → w.toNat % 2 ^ 20 ≠ 0 →
    runCommand w s = .next (failed s.dropCompletion .illegal))

/-- R111: FINV applied twice gives the operand back, FMUL of the operand with its inverse gives 1, and FSQRT of the square
of an operand sets FOUND and gives a value that squares to that square. -/
def Obligations.FieldLaws : Prop :=
  (∀ (a b c : Reg) (s : State), Canonical (s.reg a) → (s.reg a).toNat ≠ 0 →
    ∃ t, exec (.finv b a) s = .next t ∧
      (∃ u, exec (.finv c b) t = .next u ∧ u.reg c = s.reg a) ∧
      (a ≠ b → ∃ v, exec (.fmul c a b) t = .next v ∧ (v.reg c).toNat = 1)) ∧
  (∀ (a b c d : Reg) (s : State), Canonical (s.reg a) →
    ∃ t, exec (.fmul b a a) s = .next t ∧ ∃ u, exec (.fsqrt c b) t = .next u ∧ u.found = true ∧
      ∃ v, exec (.fmul d c c) u = .next v ∧ v.reg d = t.reg b)

/-- R91: the pseudo-instructions, by their effects. -/
def Obligations.PseudoInstructionEffects : Prop :=
  (∀ (d a : Reg) (s : State), Canonical (s.reg a) →
    ∃ t, exec (.fsqr d a) s = .next t ∧ WroteField s t d ((s.reg a).toNat ^ 2 % Config.p)) ∧
  (∀ (d a : Reg) (s : State), ¬ Canonical (s.reg a) → exec (.fsqr d a) s = .next (failed s .nonCanonical)) ∧
  (∀ (d : Reg) (s : State), ∃ t, exec (.fclr d) s = .next t ∧ WroteField s t d 0) ∧
  (∀ (d : Reg) (s : State), ∃ t, exec (.fcanon d) s = .next t ∧ WroteField s t d ((s.reg d).toNat % Config.p)) ∧
  (∀ (d0 d1 : Reg) (s : State), exec (.htf d0 d1) s = exec (.h2f d0 d1) s) ∧
  (∀ d a : Reg, encode (.fsqr d a) = encode (.fmul d a a) ∧ encode (.fclr d) = encode (.b2f d 0 0) ∧
    encode (.fcanon d) = encode (.fred d d) ∧ encode (.htf d a) = encode (.h2f d a))

/-! ### Expansion and hash-to-field (spec/41_message_expansion.md to spec/43_hash_binding.md) -/

/-- R142: for every hash with 32-byte digests, the expansion is the concatenation of `b[1]`, `b[2]`, ..., cut to `n` bytes,
where the blocks follow the rule's recurrence. -/
def Obligations.ExpandFollowsRecurrence : Prop :=
  ∀ (H : List Byte → List Byte), Digests32 H → ∀ (dst msg : List Byte) (n : Nat),
    let b0 := H (List.replicate 136 0x00#8 ++ msg ++ i2osp n 2 ++ i2osp 0 1 ++ (dst ++ i2osp dst.length 1))
    (expandWith H dst msg n).out =
      ((List.range ((n + 31) / 32)).flatMap fun j => blockAfter H dst b0 j).take n

/-- R143: the hash calls of an expansion are those of `b[0]`, `b[1]`, ..., in order; how many they are, and the length of
each input. -/
def Obligations.HashCallCountAndLengths : Prop :=
  ∀ (H : List Byte → List Byte), Digests32 H → ∀ (dst msg : List Byte) (n : Nat),
    let calls := (expandWith H dst msg n).calls
    let b0 := H (List.replicate 136 0x00#8 ++ msg ++ i2osp n 2 ++ i2osp 0 1 ++ (dst ++ i2osp dst.length 1))
    calls.map H = b0 :: (List.range (calls.length - 1)).map (blockAfter H dst b0) ∧
    calls.length = (if n = 0 then 2 else (n + 31) / 32 + 1) ∧
    (∃ first later, calls = first :: later ∧ first.length = 140 + msg.length + dst.length ∧
      ∀ c ∈ later, c.length = 34 + dst.length)

/-- R145: the output of an expansion has exactly `n` bytes. -/
def Obligations.ExpandOutputLength : Prop :=
  ∀ (H : List Byte → List Byte), Digests32 H → ∀ (dst msg : List Byte) (n : Nat),
    (expandWith H dst msg n).out.length = n

/-- R147 and R146: XMD. Below the bounds it makes the expansion's hash calls and writes `OUT[0:n]`, and nothing else; else
it ends with the first error of R146, no hash call and no write. -/
def Obligations.XmdWritesExpansion : Prop :=
  (∀ (n : BitVec 16) (s : State), s.dstLen.toNat ≤ 255 → s.msgLen.toNat ≤ 4096 → n.toNat ≤ 8160 →
    let x := expandWith hash s.domainTag s.message n.toNat
    ∃ t, exec (.xmd n) s = .next t ∧ Succeeded s t ∧ t.found = s.found ∧ SameRegsBut [] s t ∧ SameControl s t ∧
      t.portLog = s.portLog ++ x.calls.map .hash ∧ t.draws = s.draws ∧
      (∀ j, j < n.toNat → some (t.out j) = x.out[j]?) ∧
      (∀ a, a < 0x2000 ∨ 0x2000 + n.toNat ≤ a → t.byte a = s.byte a)) ∧
  (∀ (n : BitVec 16) (s : State), 255 < s.dstLen.toNat → exec (.xmd n) s = .next (failed s .invalidDomainLength)) ∧
  (∀ (n : BitVec 16) (s : State), s.dstLen.toNat ≤ 255 → 4096 < s.msgLen.toNat →
    exec (.xmd n) s = .next (failed s .bounds)) ∧
  (∀ (n : BitVec 16) (s : State), s.dstLen.toNat ≤ 255 → s.msgLen.toNat ≤ 4096 → 8160 < n.toNat →
    exec (.xmd n) s = .next (failed s .outputLength)) ∧
  (∀ n : BitVec 16, decode (BitVec.ofNat 32 (0x10 * 2 ^ 24 + n.toNat)) = .ok (.xmd n)) ∧
  (∀ (w : Word) (s : State), w.toNat / 2 ^ 24 = 0x10 → w.toNat / 2 ^ 16 % 2 ^ 8 ≠ 0 →
    runCommand w s = .next (failed s.dropCompletion .illegal))

/-- R170: H2F. -/
def Obligations.H2fWritesTwoElements : Prop :=
  (∀ (rd rd2 : Reg) (s : State), s.dstLen.toNat ≤ 255 → s.msgLen.toNat ≤ 4096 →
    let x := expandWith hash s.domainTag s.message 96
    ∃ t, exec (.h2f rd rd2) s = .next t ∧ Succeeded s t ∧ t.found = s.found ∧ SameRegsBut [rd, rd2] s t ∧
      SameControl s t ∧
      (rd ≠ rd2 → (t.reg rd).toNat = os2ip (x.out.take 48) % Config.p) ∧
      (t.reg rd2).toNat = os2ip (x.out.drop 48) % Config.p ∧
      t.portLog = s.portLog ++ x.calls.map .hash ∧ x.calls.length = 4 ∧ t.draws = s.draws ∧
      (∀ j, j < 96 → some (t.out j) = x.out[j]?) ∧
      (∀ a, a < 0x2000 ∨ 0x2000 + 96 ≤ a → t.byte a = s.byte a)) ∧
  (∀ (rd rd2 : Reg) (s : State), 255 < s.dstLen.toNat →
    exec (.h2f rd rd2) s = .next (failed s .invalidDomainLength)) ∧
  (∀ (rd rd2 : Reg) (s : State), s.dstLen.toNat ≤ 255 → 4096 < s.msgLen.toNat →
    exec (.h2f rd rd2) s = .next (failed s .bounds)) ∧
  (∀ rd rd2 : Reg, decode (formatRWord 0x11 rd rd2 0) = .ok (.h2f rd rd2)) ∧
  (∀ (w : Word) (s : State), w.toNat / 2 ^ 24 = 0x11 → w.toNat % 2 ^ 16 ≠ 0 →
    runCommand w s = .next (failed s.dropCompletion .illegal))

/-- R171: B2F. -/
def Obligations.B2fReducesChunk : Prop :=
  (∀ (rd : Reg) (len : BitVec 6) (off : BitVec 14) (s : State), len.toNat ≤ 48 → off.toNat + len.toNat ≤ 8192 →
    ∃ t, exec (.b2f rd len off) s = .next t ∧
      WroteField s t rd (os2ip ((List.range len.toNat).map fun j => s.out (off.toNat + j)) % Config.p) ∧
      t.found = s.found ∧ NoPortCall s t) ∧
  (∀ (rd : Reg) (len : BitVec 6) (off : BitVec 14) (s : State), len.toNat ≤ 48 → 8192 < off.toNat + len.toNat →
    exec (.b2f rd len off) s = .next (failed s .bounds)) ∧
  (∀ (rd : Reg) (len : BitVec 6) (off : BitVec 14), len.toNat ≤ 48 →
    decode (BitVec.ofNat 32 (0x12 * 2 ^ 24 + rd.val * 2 ^ 20 + len.toNat * 2 ^ 14 + off.toNat)) =
      .ok (.b2f rd len off)) ∧
  (∀ (w : Word) (s : State), w.toNat / 2 ^ 24 = 0x12 → 48 < w.toNat / 2 ^ 14 % 2 ^ 6 →
    runCommand w s = .next (failed s.dropCompletion .illegal))

/-- R172: H2F ends in the same state as XMD 96 followed by the two B2F of its chunks, which complete three times; both
elements are canonical, and are the reductions of the two chunks left in OUT. On an error XMD 96 fails alike, and the two
B2F then run on the old OUT bytes. -/
def Obligations.H2fIsXmdThenTwoB2f : Prop :=
  (∀ (a b : Reg) (s : State), s.dstLen.toNat ≤ 255 → s.msgLen.toNat ≤ 4096 →
    ∃ s1 s2 s3, exec (.xmd 96) s = .next s1 ∧ exec (.b2f a 48 0) s1 = .next s2 ∧ exec (.b2f b 48 48) s2 = .next s3 ∧
      exec (.h2f a b) s = .next s3 ∧ Succeeded s s1 ∧ Succeeded s1 s2 ∧ Succeeded s2 s3 ∧
      Canonical (s3.reg a) ∧ Canonical (s3.reg b) ∧
      (a ≠ b → (s3.reg a).toNat = os2ip ((List.range 48).map fun j => s3.out j) % Config.p) ∧
      (s3.reg b).toNat = os2ip ((List.range 48).map fun j => s3.out (48 + j)) % Config.p) ∧
  (∀ (a b : Reg) (s : State), 255 < s.dstLen.toNat ∨ 4096 < s.msgLen.toNat →
    ∃ e s2 s3, e ≠ .none ∧ exec (.xmd 96) s = .next (failed s e) ∧ exec (.h2f a b) s = .next (failed s e) ∧
      exec (.b2f a 48 0) (failed s e) = .next s2 ∧ exec (.b2f b 48 48) s2 = .next s3 ∧
      (s2.reg a).toNat = os2ip ((List.range 48).map fun j => s.out j) % Config.p ∧
      (s3.reg b).toNat = os2ip ((List.range 48).map fun j => s.out (48 + j)) % Config.p)

/-- R190 and R197: every digest of the bound hash has 32 bytes. -/
def Obligations.HashDigestHas32Bytes : Prop := Digests32 hash

/-- R192: the padding of the hash input. -/
def Obligations.KeccakPaddingFillsBlocks : Prop :=
  ∀ s : List Byte,
    (s.length % 136 = 135 → keccakPad s = s ++ [0x81#8]) ∧
    (s.length % 136 ≠ 135 →
      keccakPad s = s ++ [0x01#8] ++ List.replicate (134 - s.length % 136) 0x00#8 ++ [0x80#8]) ∧
    (keccakPad s).length % 136 = 0

/-- R194: the steps of a round, lane by lane as the rule writes them, and the 24 rounds. -/
def Obligations.KeccakRoundIsThePointwiseSteps : Prop :=
  (∀ (A : List Lane) (rc : Lane) (x y : Nat), x < 5 → y < 5 →
    let C := fun x => lane A x 0 ^^^ lane A x 1 ^^^ lane A x 2 ^^^ lane A x 3 ^^^ lane A x 4
    lane (keccakTheta A) x y = lane A x y ^^^ (C ((x + 4) % 5) ^^^ (C ((x + 1) % 5)).rotateLeft 1) ∧
    lane (keccakRhoPi A) y (2 * x + 3 * y) = (lane A x y).rotateLeft (rotationOffsets.getD (x + 5 * y) 0) ∧
    lane (keccakChi A) x y = lane A x y ^^^ (~~~(lane A (x + 1) y) &&& lane A (x + 2) y) ∧
    lane (keccakIota rc A) x y = (if x = 0 ∧ y = 0 then lane A x y ^^^ rc else lane A x y)) ∧
  (∀ (A : List Lane) (rc : Lane), keccakRound A rc = keccakIota rc (keccakChi (keccakRhoPi (keccakTheta A)))) ∧
  (∀ A : List Lane,
    keccakF A = (List.range 24).foldl (fun B ir => keccakRound B (roundConstants.getD ir 0#64)) A)

/-! ### What commands may read and write (spec/10_state.md) -/

/-- R22, the writes: a command changes no field register but its destinations, no OUT byte but those it names, no DST or
MSG byte, and no control register but STATUS. -/
def Obligations.CommandWritesOnlyItsPlaces : Prop :=
  ∀ (i : Instr) (s t : State), exec i s = .next t →
    SameRegsBut (destinations i) s t ∧ SameControl s t ∧
    ∀ a, a < 0x2000 ∨ 0x2000 + outWritten i ≤ a → t.byte a = s.byte a

/-- R34, R35 and R68: an expansion depends on no buffer byte but `DST[0:DSTLEN]` and `MSG[0:MSGLEN]`, and B2F on none but
its chunk of OUT. -/
def Obligations.CommandReadsOnlyItsBytes : Prop :=
  (∀ (n : BitVec 16) (rd rd2 : Reg) (s s' : State), s'.dstLen = s.dstLen → s'.msgLen = s.msgLen →
    (∀ j, j < s.dstLen.toNat → s'.dst j = s.dst j) → (∀ j, j < s.msgLen.toNat → s'.msg j = s.msg j) →
    s.dstLen.toNat ≤ 255 → s.msgLen.toNat ≤ 4096 → n.toNat ≤ 8160 →
    (∃ t t', exec (.xmd n) s = .next t ∧ exec (.xmd n) s' = .next t' ∧ ∀ j, j < n.toNat → t'.out j = t.out j) ∧
    (∃ t t', exec (.h2f rd rd2) s = .next t ∧ exec (.h2f rd rd2) s' = .next t' ∧
      t'.reg rd = t.reg rd ∧ t'.reg rd2 = t.reg rd2)) ∧
  (∀ (rd : Reg) (len : BitVec 6) (off : BitVec 14) (s s' : State), len.toNat ≤ 48 → off.toNat + len.toNat ≤ 8192 →
    (∀ j, j < len.toNat → s'.out (off.toNat + j) = s.out (off.toNat + j)) →
    ∃ t t', exec (.b2f rd len off) s = .next t ∧ exec (.b2f rd len off) s' = .next t' ∧ t'.reg rd = t.reg rd)

/-- R23: every value a command writes to a field register is canonical; a field register that a step leaves with a new,
non-canonical value was written by the host, or drawn by a reset (R241). -/
def Obligations.OnlyHostWritesNonCanonical : Prop :=
  (∀ (i : Instr) (s t : State) (k : Reg), exec i s = .next t → t.lastErr = .none → k ∈ destinations i →
    Canonical (t.reg k)) ∧
  (∀ (s t : State) (k : Reg), step s = .next t → t.reg k ≠ s.reg k → ¬ Canonical (t.reg k) →
    (∃ a v, (s.turn = .perform a ∨ s.turn = .release a) ∧ a.op = .write v) ∨ (∃ pulse, s.turn = .reset pulse))

/-- R30: FOUND is written only by an FSQRT that completes without error. -/
def Obligations.OnlyFsqrtWritesFound : Prop :=
  (∀ (i : Instr) (s t : State), exec i s = .next t → t.found ≠ s.found →
    ∃ rd ra, i = .fsqrt rd ra ∧ t.lastErr = .none) ∧
  (∀ (rd ra : Reg) (s t : State), exec (.fsqrt rd ra) s = .next t → t.lastErr = .none →
    t.found = ((t.reg rd).toNat * (t.reg rd).toNat % Config.p == (s.reg ra).toNat)) ∧
  (∀ (s : State) (a : Access), (s.perform a).found = s.found) ∧
  (∀ (s t : State) (w : Word), IllegalWord w → runCommand w s = .next t → t.found = s.found)

/-- R143, R148 and R112: the port transactions of a completed command are exactly those of its rule, after those made
before; a command that fails makes none. -/
def Obligations.CommandMakesItsPortCalls : Prop :=
  ∀ (i : Instr) (s t : State), exec i s = .next t →
    t.portLog = s.portLog ++ s.portCalls i ∧ (t.lastErr ≠ .none → t.portLog = s.portLog ∧ t.draws = s.draws)

/-! ### The host bus (spec/20_memory.md) -/

/-- R58 (with R55, R56, R57, R217): an access that is misaligned, partial, wider than a word, or unmapped ends at once with
a bus error, even with a command in flight, and changes no state of the block. -/
def Obligations.BusErrorChangesNothing : Prop :=
  ∀ (s : State) (a : Access) (rest : List Event), s.held = none → s.agenda = .access a :: rest →
    (a.off.toNat % 4 ≠ 0 ∨ a.enables ≠ 0xF#4 ∨ a.beats ≠ 1 ∨ (0x0018 ≤ a.off.toNat ∧ a.off.toNat ≤ 0x01FF) ∨
      (0x0500 ≤ a.off.toNat ∧ a.off.toNat ≤ 0x0FFF)) →
    step s = .next { s with agenda := rest, busLog := s.busLog ++ [⟨a, .error⟩] }

/-- R50 and R59: with no command in flight, every aligned, whole-word access to a mapped offset gets its response at once:
a read the word, with no side effect anywhere; a write its effect. -/
def Obligations.MappedAccessCompletes : Prop :=
  ∀ (s : State) (off : BitVec 14) (rest : List Event), s.held = none → s.inflight = none → off.toNat % 4 = 0 →
    (off.toNat < 0x0018 ∨ (0x0200 ≤ off.toNat ∧ off.toNat < 0x0500) ∨ 0x1000 ≤ off.toNat) →
    (s.agenda = .access (.readAt off) :: rest →
      step s = .next { s with agenda := rest,
                              busLog := s.busLog ++ [⟨.readAt off, .data (s.readWord off)⟩] }) ∧
    (∀ v, s.agenda = .access (.writeAt off v) :: rest →
      step s = .next { s.writeWord off v with agenda := rest,
                                              busLog := s.busLog ++ [⟨.writeAt off v, .done⟩] })

/-- R26, R27, R28, R29, R32, R33 and R38: the control registers as read, with reserved bits 0, and as written. -/
def Obligations.ControlRegistersReadAndWrite : Prop :=
  ∀ (s : State) (v : Word),
    s.readWord 0x0000#14 = 0x534C4231#32 ∧ s.writeWord 0x0000#14 v = s ∧
    (s.readWord 0x0004#14).toNat = s.ie.toNat ∧ s.writeWord 0x0004#14 v = { s with ie := v.getLsbD 0 } ∧
    (s.readWord 0x0008#14).toNat = s.inflight.isSome.toNat + 2 * s.found.toNat + 4 * s.done.toNat +
      8 * s.errSeen.toNat + 16 * s.lastErr.code.toNat ∧ s.lastErr.code.toNat ≤ 6 ∧
    s.writeWord 0x0008#14 v = { s with done := s.done && !v.getLsbD 2, errSeen := s.errSeen && !v.getLsbD 3 } ∧
    s.readWord 0x000C#14 = s.cmd ∧
    (s.readWord 0x0010#14).toNat = s.dstLen.toNat ∧
    s.writeWord 0x0010#14 v = { s with dstLen := BitVec.ofNat 16 v.toNat } ∧
    (s.readWord 0x0014#14).toNat = s.msgLen.toNat ∧
    s.writeWord 0x0014#14 v = { s with msgLen := BitVec.ofNat 16 v.toNat }

/-- R52: the words of a field register, most significant first; a write replaces its slice and leaves the other 224 bits
and every other register unchanged. -/
def Obligations.FieldRegisterWords : Prop :=
  ∀ (s : State) (k : Reg) (j : Fin 8) (v : Word),
    let off := fun (j : Fin 8) => BitVec.ofNat 14 (0x0200 + 32 * k.val + 4 * j.val)
    (s.readWord (off j)).toNat = (s.reg k).toNat / 2 ^ (224 - 32 * j.val) % 2 ^ 32 ∧
    (∀ j' : Fin 8, (s.writeWord (off j) v).readWord (off j') = if j' = j then v else s.readWord (off j')) ∧
    (∀ k', k' ≠ k → (s.writeWord (off j) v).reg k' = s.reg k') ∧
    { s.writeWord (off j) v with fregs := s.fregs } = s

/-- R54: the 32 bytes of the words of a field register, in offset order, are `I2OSP(F[k], 32)`. -/
def Obligations.FieldRegisterBytesAreBigEndian : Prop :=
  ∀ (s : State) (k : Reg),
    ((List.finRange 8).flatMap fun j => unpackWord (s.readWord (BitVec.ofNat 14 (0x0200 + 32 * k.val + 4 * j.val)))) =
      i2osp (s.reg k).toNat 32

/-- R53: a word of DST, MSG or OUT packs four bytes big-endian; a write replaces those four bytes and no other. -/
def Obligations.BufferWordsPackBigEndian : Prop :=
  ∀ (s : State) (off : BitVec 14) (v : Word), off.toNat % 4 = 0 →
    ((0x0400 ≤ off.toNat ∧ off.toNat < 0x0500) ∨ 0x1000 ≤ off.toNat) →
    (s.readWord off).toNat = (s.byte off.toNat).toNat * 2 ^ 24 + (s.byte (off.toNat + 1)).toNat * 2 ^ 16 +
      (s.byte (off.toNat + 2)).toNat * 2 ^ 8 + (s.byte (off.toNat + 3)).toNat ∧
    (s.writeWord off v).readWord off = v ∧
    (∀ a, a < off.toNat ∨ off.toNat + 4 ≤ a → (s.writeWord off v).byte a = s.byte a) ∧
    { s.writeWord off v with mem := s.mem } = s

/-- R61: an access to an interlocked range while BUSY gets no response until the command completes, and is then performed
against the state the completion left. -/
def Obligations.HeldAccessSeesCompletion : Prop :=
  ∀ (s t : State) (w : Word) (i : Instr) (a : Access), s.inflight = some w → s.hung = none → decode w = .ok i →
    s.held = none → s.agenda = [.access a] → a.interlocked = true →
    exec i { s with agenda := [], held := some a } = .next t →
    step s = .next { s with agenda := [], held := some a } ∧
    Sys2Proof.core.run 2 s = .next t ∧ t.held = some a ∧ t.busLog = s.busLog ∧
    Sys2Proof.core.run 3 s = .next (State.perform { t with held := none } a)

/-- R62: accesses to ID, CTRL and STATUS are performed at once, whether a command is in flight or not; with one in flight
every other access that is no bus error is held, so they alone watch it. -/
def Obligations.IdCtrlStatusNeverHeld : Prop :=
  ∀ (s : State) (a : Access) (rest : List Event), s.held = none → s.agenda = .access a :: rest →
    (a.off.toNat < 0x000C → step s = .next (State.perform { s with agenda := rest } a)) ∧
    (0x000C ≤ a.off.toNat → a.valid = true → s.inflight.isSome = true →
      step s = .next { s with agenda := rest, held := some a })

/-- R66: between acceptance and completion nothing of the block differs from its value at acceptance but DONE and ERRSEEN,
which the host may clear, and CTRL. That the port log stays too is the model's choice (log entry 14: a command's
transactions are logged at its completion). -/
def Obligations.BusyFreezesTheState : Prop :=
  ∀ (s t : State) (w : Word), s.inflight = some w → step s = .next t → t.inflight = some w →
    t.fregs = s.fregs ∧ t.mem = s.mem ∧ t.cmd = s.cmd ∧ t.dstLen = s.dstLen ∧ t.msgLen = s.msgLen ∧
    t.found = s.found ∧ t.lastErr = s.lastErr ∧ t.portLog = s.portLog ∧ t.draws = s.draws ∧
    (t.done = true → s.done = true) ∧ (t.errSeen = true → s.errSeen = true)

/-- R63 (a): accesses get their responses one at a time and in the order the host issues them. A step adds a response to the
record of the host bus only for the access it performs, the next one the host issues while none is outstanding, or for the
one outstanding, which it releases; an access becomes outstanding only while none is. -/
def Obligations.ResponsesComeInOrder : Prop :=
  ∀ s t : State, step s = .next t →
    (∀ a, s.turn = .perform a →
      s.held = none ∧ s.agenda = .access a :: t.agenda ∧ t.held = none ∧ ∃ r, t.busLog = s.busLog ++ [⟨a, r⟩]) ∧
    (∀ a, s.turn = .release a →
      s.held = some a ∧ t.held = none ∧ t.agenda = s.agenda ∧ ∃ r, t.busLog = s.busLog ++ [⟨a, r⟩]) ∧
    (∀ a, s.turn = .hold a →
      s.held = none ∧ s.agenda = .access a :: t.agenda ∧ t.held = some a ∧ t.busLog = s.busLog) ∧
    ((∀ a, s.turn ≠ .perform a ∧ s.turn ≠ .release a ∧ s.turn ≠ .hold a) →
      t.busLog = s.busLog ∧ (t.held = s.held ∨ t.held = none))

/-- R252: once a host program's run has ended it stays ended, and only a reset still changes what is observed. -/
def Obligations.EndedRunKeepsObservation : Prop :=
  ∀ s t : State, RunEnded s → step s = .next t →
    RunEnded t ∧ ((∃ pulse, s.turn = .reset pulse) ∨ observe t = observe s)

/-! ### Status and interrupt -/

/-- R28 and R213: a STATUS write that clears DONE just before the completion loses to it: DONE ends at 1. -/
def Obligations.CompletionWinsOverClear : Prop :=
  ∀ (s : State) (w v : Word) (rest : List Event), s.inflight = some w → s.hung = none → s.held = none →
    s.agenda = .access (.writeAt 0x0008#14 v) :: .complete :: rest →
    ∃ t, Sys2Proof.core.run 2 s = .next t ∧ t.done = true ∧ (t.lastErr ≠ .none → t.errSeen = true)

/-- R218: `irq` is CTRL.IE and STATUS.DONE as the bus shows them; a completion, with an error or not, sets DONE, and
raises it when enabled; a STATUS write with
bit 2 or a CTRL write without bit 0 lowers it, the latter without clearing DONE. -/
def Obligations.IrqIsEnabledDone : Prop :=
  (∀ s : State, s.irq = ((s.readWord 0x0004#14).getLsbD 0 && (s.readWord 0x0008#14).getLsbD 2)) ∧
  (∀ (i : Instr) (s t : State), exec i s = .next t → t.done = true ∧ t.irq = s.ie) ∧
  (∀ (s : State) (v : Word), v.getLsbD 2 = true → (s.writeWord 0x0008#14 v).irq = false) ∧
  (∀ (s : State) (v : Word), v.getLsbD 0 = false →
    (s.writeWord 0x0004#14 v).irq = false ∧ (s.writeWord 0x0004#14 v).done = s.done)

/-- R227: an idle block that nothing reaches keeps all its state, and nothing but a CMD write starts a command. -/
def Obligations.OnlyCmdWriteStartsWork : Prop :=
  (∀ s : State, s.inflight = none → s.held = none → s.agenda = [] → step s = .next s) ∧
  (∀ (s t : State) (w : Word), step s = .next t → s.inflight = none → t.inflight = some w →
    ∃ a, (s.turn = .perform a ∨ s.turn = .release a) ∧ a.op = .write w ∧ a.off = 0x000C#14)

/-! ### Reset (spec/70_reset_and_hazards.md) and the invariant -/

/-- R240, R241 and R242: a reset pulse from any state gives the control registers their reset values, the field registers
and buffers any draw, abandons the command in flight without DONE and without a write, and ends a held access with no effect.
That the held access gets no response, and which port transactions of the command the log keeps, are the model's choices
(log entries 8 and 10). -/
def Obligations.ResetPulseFromAnyState : Prop :=
  ∀ (s : State) (pulse : ResetPulse) (rest : List Event), s.agenda = .reset pulse :: rest →
    ∃ t, step s = .next t ∧ t.readWord 0x0000#14 = 0x534C4231#32 ∧ t.ie = false ∧ t.readWord 0x0008#14 = 0#32 ∧
      t.cmd = 0x00000000#32 ∧ t.dstLen = 0#16 ∧ t.msgLen = 0#16 ∧ t.inflight = none ∧ t.irq = false ∧
      (∀ k, t.reg k = pulse.regs[k]) ∧ t.mem = Memory.ofCells pulse.cells ∧
      t.held = none ∧ t.hung = none ∧ t.busLog = s.busLog ∧ t.agenda = rest ∧
      t.portLog = s.portLog ++ s.inflightCalls.take pulse.started

/-- R240: what `State.reset` holds where the spec gives a value. -/
def Obligations.ResetStateControlValues : Prop :=
  State.reset.readWord 0x0000#14 = 0x534C4231#32 ∧ State.reset.readWord 0x0004#14 = 0#32 ∧
  State.reset.readWord 0x0008#14 = 0#32 ∧ State.reset.readWord 0x000C#14 = 0#32 ∧
  State.reset.readWord 0x0010#14 = 0#32 ∧ State.reset.readWord 0x0014#14 = 0#32 ∧
  State.reset.inflight = none ∧ State.reset.irq = false

/-- The invariant holds after reset. -/
def Obligations.ResetMeetsInvariant : Prop := Inv State.reset

/-- Every step keeps the invariant: the buffers stay canonical, CMD holds the word in flight, and only a well-formed access
of an interlocked range is ever held. -/
def Obligations.StepKeepsInvariant : Prop := ∀ s t : State, Inv s → step s = .next t → Inv t

/-- A collaborator that never answers: whatever word is in flight and whichever port falls silent, the command hangs if and
only if its own checks pass and its rule makes a transaction on that port; else the event says nothing. A hung command ends
by a reset alone, and with nothing more to reach it the block is stuck (spec/93_implementation_defined.md U6, U7; R250,
R242). The event and `hung` are the model's choice (log entry 9). -/
def Obligations.SilentCollaboratorHangsItsCommand : Prop :=
  (∀ (s : State) (w : Word) (port : Port) (rest : List Event), s.inflight = some w → s.hung = none →
    s.agenda = .silent port :: rest →
    ((∃ i, decode w = .ok i ∧ firstError i s = .none ∧ portOf i = some port) →
      step s = .next { s with agenda := rest, hung := some port }) ∧
    (¬ (∃ i, decode w = .ok i ∧ firstError i s = .none ∧ portOf i = some port) →
      step s = .next { s with agenda := rest })) ∧
  (∀ (s : State) (w : Word) (port : Port), s.inflight = some w → s.hung = some port →
    (s.agenda = [] → step s = .fault port.silentFault) ∧
    (∀ pulse rest, s.agenda = .reset pulse :: rest → ∃ t, step s = .next t ∧ t.inflight = none ∧ t.hung = none) ∧
    (∀ t, step s = .next t → t.inflight = none → ∃ pulse, s.turn = .reset pulse))

/-- R252 and R250: whatever the host issues and whatever resets come, the run of a host program has exactly one end, the first
state with the last access made and no command in flight, provided that every collaborator answers. -/
def Obligations.RunEndsExactlyOnce : Prop :=
  (∀ s : State, s.hung = none → (∀ port, Event.silent port ∉ s.agenda) →
    ∃ n t, n ≤ 4 * s.agenda.length + 3 ∧ RunEndsAt s n t) ∧
  (∀ (s t u : State) (n m : Nat), RunEndsAt s n t → RunEndsAt s m u → n = m ∧ t = u)
end

