-- ==== Sys2Proof/Laws/Memory.lean ====
section
/-! SUPPORT. The laws of the buffers: a byte read after a write, and the canonical form, which every operation keeps. The
read laws hold of every list of cells, canonical or not. -/

namespace Sys2Proof.Machine

/-! ### Reading after a write -/

@[simp] theorem Memory.read_nil (a : Nat) : Memory.read [] a = Config.unlistedByte := rfl

theorem Memory.read_cons (c : Host.Cell) (m : Memory) (a : Nat) :
    Memory.read (c :: m) a = if c.1 = a then c.2 else m.read a := rfl

theorem Memory.read_erase (m : Memory) (a b : Nat) :
    (m.erase a).read b = if b = a then Config.unlistedByte else m.read b := by
  induction m with
  | nil => simp [Memory.erase]
  | cons c m ih =>
    have ih' : Memory.read (m.filter fun c => c.1 != a) b = _ := ih
    by_cases hc : c.1 = a
    · simp only [Memory.erase, List.filter_cons, bne_iff_ne, ne_eq, hc, not_true_eq_false, ↓reduceIte, ih',
        Memory.read_cons]
      by_cases hb : b = a
      · simp [hb]
      · simp [hb, Ne.symm hb]
    · simp only [Memory.erase, List.filter_cons, bne_iff_ne, ne_eq, hc, not_false_eq_true, ↓reduceIte,
        Memory.read_cons, ih']
      by_cases hb : b = a
      · subst hb; simp [hc]
      · simp [hb]

theorem Memory.read_insert (m : Memory) (a b : Nat) (v : Byte) (h : ∀ c ∈ m, c.1 ≠ a) :
    (m.insert a v).read b = if b = a then v else m.read b := by
  induction m with
  | nil => simp [Memory.insert, Memory.read_cons, eq_comm]
  | cons c m ih =>
    obtain ⟨k, u⟩ := c
    have hk : k ≠ a := h _ List.mem_cons_self
    have ih' := ih fun c hc => h c (List.mem_cons_of_mem _ hc)
    unfold Memory.insert
    split
    · simp [Memory.read_cons, eq_comm]
    · simp only [Memory.read_cons, ih']
      by_cases hb : b = a
      · subst hb; simp [hk]
      · simp [hb]

theorem Memory.erase_ne (m : Memory) (a : Nat) : ∀ c ∈ m.erase a, c.1 ≠ a := by
  intro c hc
  simpa [Memory.erase] using (List.mem_filter.mp hc).2

/-- A read after a write gives the byte written there, and elsewhere what it gave before. -/
theorem Memory.read_write (m : Memory) (a b : Nat) (v : Byte) :
    (m.write a v).read b = if b = a then v else m.read b := by
  unfold Memory.write
  split
  · rename_i hv; rw [Memory.read_erase, hv]
  · rw [Memory.read_insert _ _ _ _ (m.erase_ne a), Memory.read_erase]
    split <;> rfl

@[simp] theorem Memory.read_write_self (m : Memory) (a : Nat) (v : Byte) : (m.write a v).read a = v := by
  simp [Memory.read_write]

/-- A read after writing a byte string: the byte of the string inside it, the old byte outside. -/
theorem Memory.read_writeBytes (l : List Byte) : ∀ (m : Memory) (a b : Nat),
    (m.writeBytes a l).read b = if a ≤ b ∧ b < a + l.length then l.getD (b - a) 0#8 else m.read b := by
  induction l with
  | nil => intro m a b; simp only [Memory.writeBytes, List.length_nil]; rw [if_neg (by omega)]
  | cons v l ih =>
    intro m a b
    simp only [Memory.writeBytes, ih, Memory.read_write, List.length_cons]
    by_cases h1 : a + 1 ≤ b ∧ b < a + 1 + l.length
    · rw [if_pos h1, if_pos (by omega)]
      rw [show b - a = (b - (a + 1)) + 1 by omega, List.getD_cons_succ]
    · rw [if_neg h1]
      by_cases h2 : b = a
      · subst h2; simp
      · rw [if_neg h2, if_neg (by omega)]

theorem Memory.read_writeBytes_outside {m : Memory} {a b : Nat} {l : List Byte} (h : b < a ∨ a + l.length ≤ b) :
    (m.writeBytes a l).read b = m.read b := by
  rw [Memory.read_writeBytes, if_neg (by omega)]

@[simp] theorem Memory.readBytes_length (m : Memory) (a n : Nat) : (m.readBytes a n).length = n := by
  simp [Memory.readBytes]

/-- Reading back part of a byte string that was written. -/
theorem Memory.readBytes_writeBytes (m : Memory) (a i n : Nat) (l : List Byte) (h : i + n ≤ l.length) :
    (m.writeBytes a l).readBytes (a + i) n = (l.drop i).take n := by
  apply List.ext_getElem
  · simp; omega
  · intro j h1 h2
    simp only [Memory.readBytes_length] at h1
    simp only [Memory.readBytes, List.getElem_map, List.getElem_range, Memory.read_writeBytes, List.getElem_take,
      List.getElem_drop]
    rw [if_pos (by omega), show a + i + j - a = i + j by omega, List.getD_eq_getElem _ _ (by omega)]

/-- Bytes read the same in buffers that agree on the range. -/
theorem Memory.readBytes_congr {m m' : Memory} {a n : Nat} (h : ∀ b, a ≤ b → b < a + n → m'.read b = m.read b) :
    m'.readBytes a n = m.readBytes a n := by
  simp only [Memory.readBytes]
  apply List.map_congr_left
  intro i hi
  have := List.mem_range.mp hi
  exact h _ (by omega) (by omega)

/-! ### The canonical form -/

theorem Memory.wf_nil : Memory.wf [] := ⟨List.Pairwise.nil, fun _ h => absurd h List.not_mem_nil⟩

theorem Memory.wf_erase {m : Memory} (h : m.wf) (a : Nat) : (m.erase a).wf :=
  ⟨h.1.filter _, fun c hc => h.2 c (List.mem_filter.mp hc).1⟩

theorem Memory.mem_insert {m : Memory} {a : Nat} {v : Byte} {c : Host.Cell} (h : c ∈ m.insert a v) :
    c = (a, v) ∨ c ∈ m := by
  induction m with
  | nil => exact .inl (List.mem_singleton.mp h)
  | cons d m ih =>
    unfold Memory.insert at h
    split at h
    · simpa using h
    · rcases List.mem_cons.mp h with rfl | h
      · exact .inr List.mem_cons_self
      · exact (ih h).imp_right (List.mem_cons_of_mem _)

theorem Memory.wf_insert {m : Memory} (h : m.wf) {a : Nat} {v : Byte} (hm : ∀ c ∈ m, c.1 ≠ a)
    (ha : inBuffer a = true) (hv : v ≠ Config.unlistedByte) : (m.insert a v).wf := by
  refine ⟨?_, fun c hc => ?_⟩
  · have h1 := h.1
    clear h
    induction m with
    | nil => simp [Memory.insert]
    | cons d m ih =>
      have hd := List.pairwise_cons.mp h1
      unfold Memory.insert
      split
      · rename_i hlt
        refine List.pairwise_cons.mpr ⟨fun c hc => ?_, h1⟩
        rcases List.mem_cons.mp hc with rfl | hc
        · exact hlt
        · exact hlt.trans (hd.1 c hc)
      · rename_i hge
        refine List.pairwise_cons.mpr
          ⟨fun c hc => ?_, ih (fun c hc => hm c (List.mem_cons_of_mem _ hc)) hd.2⟩
        rcases Memory.mem_insert hc with rfl | hc
        · have := hm d List.mem_cons_self
          show d.1 < a
          have hge' : ¬ a < d.1 := hge
          omega
        · exact hd.1 c hc
  · rcases Memory.mem_insert hc with rfl | hc
    · exact ⟨ha, hv⟩
    · exact h.2 c hc

/-- Writing a buffer byte keeps the canonical form. -/
theorem Memory.wf_write {m : Memory} (h : m.wf) {a : Nat} (ha : inBuffer a = true) (v : Byte) : (m.write a v).wf := by
  unfold Memory.write
  split
  · exact Memory.wf_erase h a
  · rename_i hv
    exact Memory.wf_insert (Memory.wf_erase h a) (m.erase_ne a) ha hv

/-- Writing a byte string inside the buffers keeps the canonical form. -/
theorem Memory.wf_writeBytes (l : List Byte) : ∀ {m : Memory} {a : Nat}, m.wf →
    (∀ i, i < l.length → inBuffer (a + i) = true) → (m.writeBytes a l).wf := by
  induction l with
  | nil => intro m a h _; exact h
  | cons v l ih =>
    intro m a h hb
    refine ih (Memory.wf_write h (by simpa using hb 0 (by simp)) v) fun i hi => ?_
    have := hb (i + 1) (by simpa using hi)
    rwa [show a + 1 + i = a + (i + 1) by omega]

/-- Buffers drawn by a reset pulse are in canonical form. -/
theorem Memory.wf_ofCells (cells : List Host.Cell) : (Memory.ofCells cells).wf := by
  induction cells with
  | nil => exact Memory.wf_nil
  | cons c cells ih =>
    have ih' : Memory.wf (List.foldr _ [] cells) := ih
    simp only [Memory.ofCells, List.foldr_cons]
    split
    · rename_i hc; exact Memory.wf_write ih' hc c.2
    · exact ih'

/-- Every byte of OUT is a buffer byte. -/
theorem inBuffer_out {i : Nat} (h : i < Config.outBytes) : inBuffer (Config.outBase + i) = true := by
  have h' : i < 8192 := h
  simp only [inBuffer, Bool.or_eq_true, Bool.and_eq_true, decide_eq_true_eq]
  simp only [Config.outBytes, Config.outBase, Config.msgBase, Config.msgBytes, Config.dstBase, Config.dstBytes]
  omega

/-- Writing OUT keeps the canonical form. -/
theorem State.writeOut_wf {s : State} (h : s.mem.wf) {l : List Byte} (hl : l.length ≤ Config.outBytes) :
    (s.writeOut l).mem.wf :=
  Memory.wf_writeBytes l h fun _ hi => inBuffer_out (by omega)

/-- A byte after OUT is written. -/
theorem State.writeOut_byte (s : State) (l : List Byte) (a : Nat) :
    (s.writeOut l).byte a =
      if Config.outBase ≤ a ∧ a < Config.outBase + l.length then l.getD (a - Config.outBase) 0#8 else s.byte a :=
  Memory.read_writeBytes l s.mem Config.outBase a

end Sys2Proof.Machine
end

