-- ==== Sys2Proof/Laws/State.lean ====
section
/-! SUPPORT. One lemma per field and update of the state, and what each named operation leaves alone, so that no proof has
to unfold a record update. -/

namespace Sys2Proof.Machine

/-! ### setReg -/

@[simp] theorem State.setReg_fregs (s : State) (r : Reg) (v : FieldWord) : (s.setReg r v).fregs = s.fregs.set r v := rfl
@[simp] theorem State.setReg_ie (s : State) (r : Reg) (v : FieldWord) : (s.setReg r v).ie = s.ie := rfl
@[simp] theorem State.setReg_found (s : State) (r : Reg) (v : FieldWord) : (s.setReg r v).found = s.found := rfl
@[simp] theorem State.setReg_done (s : State) (r : Reg) (v : FieldWord) : (s.setReg r v).done = s.done := rfl
@[simp] theorem State.setReg_errSeen (s : State) (r : Reg) (v : FieldWord) : (s.setReg r v).errSeen = s.errSeen := rfl
@[simp] theorem State.setReg_lastErr (s : State) (r : Reg) (v : FieldWord) : (s.setReg r v).lastErr = s.lastErr := rfl
@[simp] theorem State.setReg_cmd (s : State) (r : Reg) (v : FieldWord) : (s.setReg r v).cmd = s.cmd := rfl
@[simp] theorem State.setReg_dstLen (s : State) (r : Reg) (v : FieldWord) : (s.setReg r v).dstLen = s.dstLen := rfl
@[simp] theorem State.setReg_msgLen (s : State) (r : Reg) (v : FieldWord) : (s.setReg r v).msgLen = s.msgLen := rfl
@[simp] theorem State.setReg_mem (s : State) (r : Reg) (v : FieldWord) : (s.setReg r v).mem = s.mem := rfl
@[simp] theorem State.setReg_inflight (s : State) (r : Reg) (v : FieldWord) : (s.setReg r v).inflight = s.inflight := rfl
@[simp] theorem State.setReg_held (s : State) (r : Reg) (v : FieldWord) : (s.setReg r v).held = s.held := rfl
@[simp] theorem State.setReg_hung (s : State) (r : Reg) (v : FieldWord) : (s.setReg r v).hung = s.hung := rfl
@[simp] theorem State.setReg_agenda (s : State) (r : Reg) (v : FieldWord) : (s.setReg r v).agenda = s.agenda := rfl
@[simp] theorem State.setReg_busLog (s : State) (r : Reg) (v : FieldWord) : (s.setReg r v).busLog = s.busLog := rfl
@[simp] theorem State.setReg_portLog (s : State) (r : Reg) (v : FieldWord) : (s.setReg r v).portLog = s.portLog := rfl
@[simp] theorem State.setReg_draws (s : State) (r : Reg) (v : FieldWord) : (s.setReg r v).draws = s.draws := rfl

/-! ### setField -/

@[simp] theorem State.setField_fregs (s : State) (r : Reg) (v : Nat) : (s.setField r v).fregs = s.fregs.set r (BitVec.ofNat 256 v) := rfl
@[simp] theorem State.setField_ie (s : State) (r : Reg) (v : Nat) : (s.setField r v).ie = s.ie := rfl
@[simp] theorem State.setField_found (s : State) (r : Reg) (v : Nat) : (s.setField r v).found = s.found := rfl
@[simp] theorem State.setField_done (s : State) (r : Reg) (v : Nat) : (s.setField r v).done = s.done := rfl
@[simp] theorem State.setField_errSeen (s : State) (r : Reg) (v : Nat) : (s.setField r v).errSeen = s.errSeen := rfl
@[simp] theorem State.setField_lastErr (s : State) (r : Reg) (v : Nat) : (s.setField r v).lastErr = s.lastErr := rfl
@[simp] theorem State.setField_cmd (s : State) (r : Reg) (v : Nat) : (s.setField r v).cmd = s.cmd := rfl
@[simp] theorem State.setField_dstLen (s : State) (r : Reg) (v : Nat) : (s.setField r v).dstLen = s.dstLen := rfl
@[simp] theorem State.setField_msgLen (s : State) (r : Reg) (v : Nat) : (s.setField r v).msgLen = s.msgLen := rfl
@[simp] theorem State.setField_mem (s : State) (r : Reg) (v : Nat) : (s.setField r v).mem = s.mem := rfl
@[simp] theorem State.setField_inflight (s : State) (r : Reg) (v : Nat) : (s.setField r v).inflight = s.inflight := rfl
@[simp] theorem State.setField_held (s : State) (r : Reg) (v : Nat) : (s.setField r v).held = s.held := rfl
@[simp] theorem State.setField_hung (s : State) (r : Reg) (v : Nat) : (s.setField r v).hung = s.hung := rfl
@[simp] theorem State.setField_agenda (s : State) (r : Reg) (v : Nat) : (s.setField r v).agenda = s.agenda := rfl
@[simp] theorem State.setField_busLog (s : State) (r : Reg) (v : Nat) : (s.setField r v).busLog = s.busLog := rfl
@[simp] theorem State.setField_portLog (s : State) (r : Reg) (v : Nat) : (s.setField r v).portLog = s.portLog := rfl
@[simp] theorem State.setField_draws (s : State) (r : Reg) (v : Nat) : (s.setField r v).draws = s.draws := rfl

/-! ### setFound -/

@[simp] theorem State.setFound_fregs (s : State) (v : Bool) : (s.setFound v).fregs = s.fregs := rfl
@[simp] theorem State.setFound_ie (s : State) (v : Bool) : (s.setFound v).ie = s.ie := rfl
@[simp] theorem State.setFound_found (s : State) (v : Bool) : (s.setFound v).found = v := rfl
@[simp] theorem State.setFound_done (s : State) (v : Bool) : (s.setFound v).done = s.done := rfl
@[simp] theorem State.setFound_errSeen (s : State) (v : Bool) : (s.setFound v).errSeen = s.errSeen := rfl
@[simp] theorem State.setFound_lastErr (s : State) (v : Bool) : (s.setFound v).lastErr = s.lastErr := rfl
@[simp] theorem State.setFound_cmd (s : State) (v : Bool) : (s.setFound v).cmd = s.cmd := rfl
@[simp] theorem State.setFound_dstLen (s : State) (v : Bool) : (s.setFound v).dstLen = s.dstLen := rfl
@[simp] theorem State.setFound_msgLen (s : State) (v : Bool) : (s.setFound v).msgLen = s.msgLen := rfl
@[simp] theorem State.setFound_mem (s : State) (v : Bool) : (s.setFound v).mem = s.mem := rfl
@[simp] theorem State.setFound_inflight (s : State) (v : Bool) : (s.setFound v).inflight = s.inflight := rfl
@[simp] theorem State.setFound_held (s : State) (v : Bool) : (s.setFound v).held = s.held := rfl
@[simp] theorem State.setFound_hung (s : State) (v : Bool) : (s.setFound v).hung = s.hung := rfl
@[simp] theorem State.setFound_agenda (s : State) (v : Bool) : (s.setFound v).agenda = s.agenda := rfl
@[simp] theorem State.setFound_busLog (s : State) (v : Bool) : (s.setFound v).busLog = s.busLog := rfl
@[simp] theorem State.setFound_portLog (s : State) (v : Bool) : (s.setFound v).portLog = s.portLog := rfl
@[simp] theorem State.setFound_draws (s : State) (v : Bool) : (s.setFound v).draws = s.draws := rfl

/-! ### writeOut -/

@[simp] theorem State.writeOut_fregs (s : State) (l : List Byte) : (s.writeOut l).fregs = s.fregs := rfl
@[simp] theorem State.writeOut_ie (s : State) (l : List Byte) : (s.writeOut l).ie = s.ie := rfl
@[simp] theorem State.writeOut_found (s : State) (l : List Byte) : (s.writeOut l).found = s.found := rfl
@[simp] theorem State.writeOut_done (s : State) (l : List Byte) : (s.writeOut l).done = s.done := rfl
@[simp] theorem State.writeOut_errSeen (s : State) (l : List Byte) : (s.writeOut l).errSeen = s.errSeen := rfl
@[simp] theorem State.writeOut_lastErr (s : State) (l : List Byte) : (s.writeOut l).lastErr = s.lastErr := rfl
@[simp] theorem State.writeOut_cmd (s : State) (l : List Byte) : (s.writeOut l).cmd = s.cmd := rfl
@[simp] theorem State.writeOut_dstLen (s : State) (l : List Byte) : (s.writeOut l).dstLen = s.dstLen := rfl
@[simp] theorem State.writeOut_msgLen (s : State) (l : List Byte) : (s.writeOut l).msgLen = s.msgLen := rfl
@[simp] theorem State.writeOut_mem (s : State) (l : List Byte) : (s.writeOut l).mem = s.mem.writeBytes Config.outBase l := rfl
@[simp] theorem State.writeOut_inflight (s : State) (l : List Byte) : (s.writeOut l).inflight = s.inflight := rfl
@[simp] theorem State.writeOut_held (s : State) (l : List Byte) : (s.writeOut l).held = s.held := rfl
@[simp] theorem State.writeOut_hung (s : State) (l : List Byte) : (s.writeOut l).hung = s.hung := rfl
@[simp] theorem State.writeOut_agenda (s : State) (l : List Byte) : (s.writeOut l).agenda = s.agenda := rfl
@[simp] theorem State.writeOut_busLog (s : State) (l : List Byte) : (s.writeOut l).busLog = s.busLog := rfl
@[simp] theorem State.writeOut_portLog (s : State) (l : List Byte) : (s.writeOut l).portLog = s.portLog := rfl
@[simp] theorem State.writeOut_draws (s : State) (l : List Byte) : (s.writeOut l).draws = s.draws := rfl

/-! ### logHash -/

@[simp] theorem State.logHash_fregs (s : State) (l : List (List Byte)) : (s.logHash l).fregs = s.fregs := rfl
@[simp] theorem State.logHash_ie (s : State) (l : List (List Byte)) : (s.logHash l).ie = s.ie := rfl
@[simp] theorem State.logHash_found (s : State) (l : List (List Byte)) : (s.logHash l).found = s.found := rfl
@[simp] theorem State.logHash_done (s : State) (l : List (List Byte)) : (s.logHash l).done = s.done := rfl
@[simp] theorem State.logHash_errSeen (s : State) (l : List (List Byte)) : (s.logHash l).errSeen = s.errSeen := rfl
@[simp] theorem State.logHash_lastErr (s : State) (l : List (List Byte)) : (s.logHash l).lastErr = s.lastErr := rfl
@[simp] theorem State.logHash_cmd (s : State) (l : List (List Byte)) : (s.logHash l).cmd = s.cmd := rfl
@[simp] theorem State.logHash_dstLen (s : State) (l : List (List Byte)) : (s.logHash l).dstLen = s.dstLen := rfl
@[simp] theorem State.logHash_msgLen (s : State) (l : List (List Byte)) : (s.logHash l).msgLen = s.msgLen := rfl
@[simp] theorem State.logHash_mem (s : State) (l : List (List Byte)) : (s.logHash l).mem = s.mem := rfl
@[simp] theorem State.logHash_inflight (s : State) (l : List (List Byte)) : (s.logHash l).inflight = s.inflight := rfl
@[simp] theorem State.logHash_held (s : State) (l : List (List Byte)) : (s.logHash l).held = s.held := rfl
@[simp] theorem State.logHash_hung (s : State) (l : List (List Byte)) : (s.logHash l).hung = s.hung := rfl
@[simp] theorem State.logHash_agenda (s : State) (l : List (List Byte)) : (s.logHash l).agenda = s.agenda := rfl
@[simp] theorem State.logHash_busLog (s : State) (l : List (List Byte)) : (s.logHash l).busLog = s.busLog := rfl
@[simp] theorem State.logHash_portLog (s : State) (l : List (List Byte)) : (s.logHash l).portLog = s.portLog ++ l.map .hash := rfl
@[simp] theorem State.logHash_draws (s : State) (l : List (List Byte)) : (s.logHash l).draws = s.draws := rfl

/-! ### logEntropy -/

@[simp] theorem State.logEntropy_fregs (s : State) : (s.logEntropy).fregs = s.fregs := rfl
@[simp] theorem State.logEntropy_ie (s : State) : (s.logEntropy).ie = s.ie := rfl
@[simp] theorem State.logEntropy_found (s : State) : (s.logEntropy).found = s.found := rfl
@[simp] theorem State.logEntropy_done (s : State) : (s.logEntropy).done = s.done := rfl
@[simp] theorem State.logEntropy_errSeen (s : State) : (s.logEntropy).errSeen = s.errSeen := rfl
@[simp] theorem State.logEntropy_lastErr (s : State) : (s.logEntropy).lastErr = s.lastErr := rfl
@[simp] theorem State.logEntropy_cmd (s : State) : (s.logEntropy).cmd = s.cmd := rfl
@[simp] theorem State.logEntropy_dstLen (s : State) : (s.logEntropy).dstLen = s.dstLen := rfl
@[simp] theorem State.logEntropy_msgLen (s : State) : (s.logEntropy).msgLen = s.msgLen := rfl
@[simp] theorem State.logEntropy_mem (s : State) : (s.logEntropy).mem = s.mem := rfl
@[simp] theorem State.logEntropy_inflight (s : State) : (s.logEntropy).inflight = s.inflight := rfl
@[simp] theorem State.logEntropy_held (s : State) : (s.logEntropy).held = s.held := rfl
@[simp] theorem State.logEntropy_hung (s : State) : (s.logEntropy).hung = s.hung := rfl
@[simp] theorem State.logEntropy_agenda (s : State) : (s.logEntropy).agenda = s.agenda := rfl
@[simp] theorem State.logEntropy_busLog (s : State) : (s.logEntropy).busLog = s.busLog := rfl
@[simp] theorem State.logEntropy_portLog (s : State) : (s.logEntropy).portLog = s.portLog ++ [.entropy s.draws] := rfl
@[simp] theorem State.logEntropy_draws (s : State) : (s.logEntropy).draws = s.draws + 1 := rfl

/-! ### accept -/

@[simp] theorem State.accept_fregs (s : State) (w : Word) : (s.accept w).fregs = s.fregs := rfl
@[simp] theorem State.accept_ie (s : State) (w : Word) : (s.accept w).ie = s.ie := rfl
@[simp] theorem State.accept_found (s : State) (w : Word) : (s.accept w).found = s.found := rfl
@[simp] theorem State.accept_done (s : State) (w : Word) : (s.accept w).done = s.done := rfl
@[simp] theorem State.accept_errSeen (s : State) (w : Word) : (s.accept w).errSeen = s.errSeen := rfl
@[simp] theorem State.accept_lastErr (s : State) (w : Word) : (s.accept w).lastErr = s.lastErr := rfl
@[simp] theorem State.accept_cmd (s : State) (w : Word) : (s.accept w).cmd = w := rfl
@[simp] theorem State.accept_dstLen (s : State) (w : Word) : (s.accept w).dstLen = s.dstLen := rfl
@[simp] theorem State.accept_msgLen (s : State) (w : Word) : (s.accept w).msgLen = s.msgLen := rfl
@[simp] theorem State.accept_mem (s : State) (w : Word) : (s.accept w).mem = s.mem := rfl
@[simp] theorem State.accept_inflight (s : State) (w : Word) : (s.accept w).inflight = some w := rfl
@[simp] theorem State.accept_held (s : State) (w : Word) : (s.accept w).held = s.held := rfl
@[simp] theorem State.accept_hung (s : State) (w : Word) : (s.accept w).hung = none := rfl
@[simp] theorem State.accept_agenda (s : State) (w : Word) : (s.accept w).agenda = s.agenda := rfl
@[simp] theorem State.accept_busLog (s : State) (w : Word) : (s.accept w).busLog = s.busLog := rfl
@[simp] theorem State.accept_portLog (s : State) (w : Word) : (s.accept w).portLog = s.portLog := rfl
@[simp] theorem State.accept_draws (s : State) (w : Word) : (s.accept w).draws = s.draws := rfl

/-! ### completeOk -/

@[simp] theorem State.completeOk_fregs (s : State) : (s.completeOk).fregs = s.fregs := rfl
@[simp] theorem State.completeOk_ie (s : State) : (s.completeOk).ie = s.ie := rfl
@[simp] theorem State.completeOk_found (s : State) : (s.completeOk).found = s.found := rfl
@[simp] theorem State.completeOk_done (s : State) : (s.completeOk).done = true := rfl
@[simp] theorem State.completeOk_errSeen (s : State) : (s.completeOk).errSeen = s.errSeen := rfl
@[simp] theorem State.completeOk_lastErr (s : State) : (s.completeOk).lastErr = .none := rfl
@[simp] theorem State.completeOk_cmd (s : State) : (s.completeOk).cmd = s.cmd := rfl
@[simp] theorem State.completeOk_dstLen (s : State) : (s.completeOk).dstLen = s.dstLen := rfl
@[simp] theorem State.completeOk_msgLen (s : State) : (s.completeOk).msgLen = s.msgLen := rfl
@[simp] theorem State.completeOk_mem (s : State) : (s.completeOk).mem = s.mem := rfl
@[simp] theorem State.completeOk_inflight (s : State) : (s.completeOk).inflight = none := rfl
@[simp] theorem State.completeOk_held (s : State) : (s.completeOk).held = s.held := rfl
@[simp] theorem State.completeOk_hung (s : State) : (s.completeOk).hung = s.hung := rfl
@[simp] theorem State.completeOk_agenda (s : State) : (s.completeOk).agenda = s.agenda := rfl
@[simp] theorem State.completeOk_busLog (s : State) : (s.completeOk).busLog = s.busLog := rfl
@[simp] theorem State.completeOk_portLog (s : State) : (s.completeOk).portLog = s.portLog := rfl
@[simp] theorem State.completeOk_draws (s : State) : (s.completeOk).draws = s.draws := rfl

/-! ### completeError -/

@[simp] theorem State.completeError_fregs (s : State) (e : ErrCode) : (s.completeError e).fregs = s.fregs := rfl
@[simp] theorem State.completeError_ie (s : State) (e : ErrCode) : (s.completeError e).ie = s.ie := rfl
@[simp] theorem State.completeError_found (s : State) (e : ErrCode) : (s.completeError e).found = s.found := rfl
@[simp] theorem State.completeError_done (s : State) (e : ErrCode) : (s.completeError e).done = true := rfl
@[simp] theorem State.completeError_errSeen (s : State) (e : ErrCode) : (s.completeError e).errSeen = true := rfl
@[simp] theorem State.completeError_lastErr (s : State) (e : ErrCode) : (s.completeError e).lastErr = e := rfl
@[simp] theorem State.completeError_cmd (s : State) (e : ErrCode) : (s.completeError e).cmd = s.cmd := rfl
@[simp] theorem State.completeError_dstLen (s : State) (e : ErrCode) : (s.completeError e).dstLen = s.dstLen := rfl
@[simp] theorem State.completeError_msgLen (s : State) (e : ErrCode) : (s.completeError e).msgLen = s.msgLen := rfl
@[simp] theorem State.completeError_mem (s : State) (e : ErrCode) : (s.completeError e).mem = s.mem := rfl
@[simp] theorem State.completeError_inflight (s : State) (e : ErrCode) : (s.completeError e).inflight = none := rfl
@[simp] theorem State.completeError_held (s : State) (e : ErrCode) : (s.completeError e).held = s.held := rfl
@[simp] theorem State.completeError_hung (s : State) (e : ErrCode) : (s.completeError e).hung = s.hung := rfl
@[simp] theorem State.completeError_agenda (s : State) (e : ErrCode) : (s.completeError e).agenda = s.agenda := rfl
@[simp] theorem State.completeError_busLog (s : State) (e : ErrCode) : (s.completeError e).busLog = s.busLog := rfl
@[simp] theorem State.completeError_portLog (s : State) (e : ErrCode) : (s.completeError e).portLog = s.portLog := rfl
@[simp] theorem State.completeError_draws (s : State) (e : ErrCode) : (s.completeError e).draws = s.draws := rfl

/-! ### writeStatus -/

@[simp] theorem State.writeStatus_fregs (s : State) (v : Word) : (s.writeStatus v).fregs = s.fregs := rfl
@[simp] theorem State.writeStatus_ie (s : State) (v : Word) : (s.writeStatus v).ie = s.ie := rfl
@[simp] theorem State.writeStatus_found (s : State) (v : Word) : (s.writeStatus v).found = s.found := rfl
@[simp] theorem State.writeStatus_done (s : State) (v : Word) : (s.writeStatus v).done = (s.done && !v.getLsbD 2) := rfl
@[simp] theorem State.writeStatus_errSeen (s : State) (v : Word) : (s.writeStatus v).errSeen = (s.errSeen && !v.getLsbD 3) := rfl
@[simp] theorem State.writeStatus_lastErr (s : State) (v : Word) : (s.writeStatus v).lastErr = s.lastErr := rfl
@[simp] theorem State.writeStatus_cmd (s : State) (v : Word) : (s.writeStatus v).cmd = s.cmd := rfl
@[simp] theorem State.writeStatus_dstLen (s : State) (v : Word) : (s.writeStatus v).dstLen = s.dstLen := rfl
@[simp] theorem State.writeStatus_msgLen (s : State) (v : Word) : (s.writeStatus v).msgLen = s.msgLen := rfl
@[simp] theorem State.writeStatus_mem (s : State) (v : Word) : (s.writeStatus v).mem = s.mem := rfl
@[simp] theorem State.writeStatus_inflight (s : State) (v : Word) : (s.writeStatus v).inflight = s.inflight := rfl
@[simp] theorem State.writeStatus_held (s : State) (v : Word) : (s.writeStatus v).held = s.held := rfl
@[simp] theorem State.writeStatus_hung (s : State) (v : Word) : (s.writeStatus v).hung = s.hung := rfl
@[simp] theorem State.writeStatus_agenda (s : State) (v : Word) : (s.writeStatus v).agenda = s.agenda := rfl
@[simp] theorem State.writeStatus_busLog (s : State) (v : Word) : (s.writeStatus v).busLog = s.busLog := rfl
@[simp] theorem State.writeStatus_portLog (s : State) (v : Word) : (s.writeStatus v).portLog = s.portLog := rfl
@[simp] theorem State.writeStatus_draws (s : State) (v : Word) : (s.writeStatus v).draws = s.draws := rfl

/-! ### writeCtrl -/

@[simp] theorem State.writeCtrl_fregs (s : State) (v : Word) : (s.writeCtrl v).fregs = s.fregs := rfl
@[simp] theorem State.writeCtrl_ie (s : State) (v : Word) : (s.writeCtrl v).ie = v.getLsbD 0 := rfl
@[simp] theorem State.writeCtrl_found (s : State) (v : Word) : (s.writeCtrl v).found = s.found := rfl
@[simp] theorem State.writeCtrl_done (s : State) (v : Word) : (s.writeCtrl v).done = s.done := rfl
@[simp] theorem State.writeCtrl_errSeen (s : State) (v : Word) : (s.writeCtrl v).errSeen = s.errSeen := rfl
@[simp] theorem State.writeCtrl_lastErr (s : State) (v : Word) : (s.writeCtrl v).lastErr = s.lastErr := rfl
@[simp] theorem State.writeCtrl_cmd (s : State) (v : Word) : (s.writeCtrl v).cmd = s.cmd := rfl
@[simp] theorem State.writeCtrl_dstLen (s : State) (v : Word) : (s.writeCtrl v).dstLen = s.dstLen := rfl
@[simp] theorem State.writeCtrl_msgLen (s : State) (v : Word) : (s.writeCtrl v).msgLen = s.msgLen := rfl
@[simp] theorem State.writeCtrl_mem (s : State) (v : Word) : (s.writeCtrl v).mem = s.mem := rfl
@[simp] theorem State.writeCtrl_inflight (s : State) (v : Word) : (s.writeCtrl v).inflight = s.inflight := rfl
@[simp] theorem State.writeCtrl_held (s : State) (v : Word) : (s.writeCtrl v).held = s.held := rfl
@[simp] theorem State.writeCtrl_hung (s : State) (v : Word) : (s.writeCtrl v).hung = s.hung := rfl
@[simp] theorem State.writeCtrl_agenda (s : State) (v : Word) : (s.writeCtrl v).agenda = s.agenda := rfl
@[simp] theorem State.writeCtrl_busLog (s : State) (v : Word) : (s.writeCtrl v).busLog = s.busLog := rfl
@[simp] theorem State.writeCtrl_portLog (s : State) (v : Word) : (s.writeCtrl v).portLog = s.portLog := rfl
@[simp] theorem State.writeCtrl_draws (s : State) (v : Word) : (s.writeCtrl v).draws = s.draws := rfl

/-! ### respond -/

@[simp] theorem State.respond_fregs (s : State) (a : Access) (r : BusResponse) : (s.respond a r).fregs = s.fregs := rfl
@[simp] theorem State.respond_ie (s : State) (a : Access) (r : BusResponse) : (s.respond a r).ie = s.ie := rfl
@[simp] theorem State.respond_found (s : State) (a : Access) (r : BusResponse) : (s.respond a r).found = s.found := rfl
@[simp] theorem State.respond_done (s : State) (a : Access) (r : BusResponse) : (s.respond a r).done = s.done := rfl
@[simp] theorem State.respond_errSeen (s : State) (a : Access) (r : BusResponse) : (s.respond a r).errSeen = s.errSeen := rfl
@[simp] theorem State.respond_lastErr (s : State) (a : Access) (r : BusResponse) : (s.respond a r).lastErr = s.lastErr := rfl
@[simp] theorem State.respond_cmd (s : State) (a : Access) (r : BusResponse) : (s.respond a r).cmd = s.cmd := rfl
@[simp] theorem State.respond_dstLen (s : State) (a : Access) (r : BusResponse) : (s.respond a r).dstLen = s.dstLen := rfl
@[simp] theorem State.respond_msgLen (s : State) (a : Access) (r : BusResponse) : (s.respond a r).msgLen = s.msgLen := rfl
@[simp] theorem State.respond_mem (s : State) (a : Access) (r : BusResponse) : (s.respond a r).mem = s.mem := rfl
@[simp] theorem State.respond_inflight (s : State) (a : Access) (r : BusResponse) : (s.respond a r).inflight = s.inflight := rfl
@[simp] theorem State.respond_held (s : State) (a : Access) (r : BusResponse) : (s.respond a r).held = s.held := rfl
@[simp] theorem State.respond_hung (s : State) (a : Access) (r : BusResponse) : (s.respond a r).hung = s.hung := rfl
@[simp] theorem State.respond_agenda (s : State) (a : Access) (r : BusResponse) : (s.respond a r).agenda = s.agenda := rfl
@[simp] theorem State.respond_busLog (s : State) (a : Access) (r : BusResponse) : (s.respond a r).busLog = s.busLog ++ [⟨a, r⟩] := rfl
@[simp] theorem State.respond_portLog (s : State) (a : Access) (r : BusResponse) : (s.respond a r).portLog = s.portLog := rfl
@[simp] theorem State.respond_draws (s : State) (a : Access) (r : BusResponse) : (s.respond a r).draws = s.draws := rfl

/-! ### hold -/

@[simp] theorem State.hold_fregs (s : State) (a : Access) : (s.hold a).fregs = s.fregs := rfl
@[simp] theorem State.hold_ie (s : State) (a : Access) : (s.hold a).ie = s.ie := rfl
@[simp] theorem State.hold_found (s : State) (a : Access) : (s.hold a).found = s.found := rfl
@[simp] theorem State.hold_done (s : State) (a : Access) : (s.hold a).done = s.done := rfl
@[simp] theorem State.hold_errSeen (s : State) (a : Access) : (s.hold a).errSeen = s.errSeen := rfl
@[simp] theorem State.hold_lastErr (s : State) (a : Access) : (s.hold a).lastErr = s.lastErr := rfl
@[simp] theorem State.hold_cmd (s : State) (a : Access) : (s.hold a).cmd = s.cmd := rfl
@[simp] theorem State.hold_dstLen (s : State) (a : Access) : (s.hold a).dstLen = s.dstLen := rfl
@[simp] theorem State.hold_msgLen (s : State) (a : Access) : (s.hold a).msgLen = s.msgLen := rfl
@[simp] theorem State.hold_mem (s : State) (a : Access) : (s.hold a).mem = s.mem := rfl
@[simp] theorem State.hold_inflight (s : State) (a : Access) : (s.hold a).inflight = s.inflight := rfl
@[simp] theorem State.hold_held (s : State) (a : Access) : (s.hold a).held = some a := rfl
@[simp] theorem State.hold_hung (s : State) (a : Access) : (s.hold a).hung = s.hung := rfl
@[simp] theorem State.hold_agenda (s : State) (a : Access) : (s.hold a).agenda = s.agenda := rfl
@[simp] theorem State.hold_busLog (s : State) (a : Access) : (s.hold a).busLog = s.busLog := rfl
@[simp] theorem State.hold_portLog (s : State) (a : Access) : (s.hold a).portLog = s.portLog := rfl
@[simp] theorem State.hold_draws (s : State) (a : Access) : (s.hold a).draws = s.draws := rfl

/-! ### hang -/

@[simp] theorem State.hang_fregs (s : State) (p : Port) : (s.hang p).fregs = s.fregs := rfl
@[simp] theorem State.hang_ie (s : State) (p : Port) : (s.hang p).ie = s.ie := rfl
@[simp] theorem State.hang_found (s : State) (p : Port) : (s.hang p).found = s.found := rfl
@[simp] theorem State.hang_done (s : State) (p : Port) : (s.hang p).done = s.done := rfl
@[simp] theorem State.hang_errSeen (s : State) (p : Port) : (s.hang p).errSeen = s.errSeen := rfl
@[simp] theorem State.hang_lastErr (s : State) (p : Port) : (s.hang p).lastErr = s.lastErr := rfl
@[simp] theorem State.hang_cmd (s : State) (p : Port) : (s.hang p).cmd = s.cmd := rfl
@[simp] theorem State.hang_dstLen (s : State) (p : Port) : (s.hang p).dstLen = s.dstLen := rfl
@[simp] theorem State.hang_msgLen (s : State) (p : Port) : (s.hang p).msgLen = s.msgLen := rfl
@[simp] theorem State.hang_mem (s : State) (p : Port) : (s.hang p).mem = s.mem := rfl
@[simp] theorem State.hang_inflight (s : State) (p : Port) : (s.hang p).inflight = s.inflight := rfl
@[simp] theorem State.hang_held (s : State) (p : Port) : (s.hang p).held = s.held := rfl
@[simp] theorem State.hang_hung (s : State) (p : Port) : (s.hang p).hung = some p := rfl
@[simp] theorem State.hang_agenda (s : State) (p : Port) : (s.hang p).agenda = s.agenda := rfl
@[simp] theorem State.hang_busLog (s : State) (p : Port) : (s.hang p).busLog = s.busLog := rfl
@[simp] theorem State.hang_portLog (s : State) (p : Port) : (s.hang p).portLog = s.portLog := rfl
@[simp] theorem State.hang_draws (s : State) (p : Port) : (s.hang p).draws = s.draws := rfl

/-! ### dropEvent -/

@[simp] theorem State.dropEvent_fregs (s : State) : (s.dropEvent).fregs = s.fregs := rfl
@[simp] theorem State.dropEvent_ie (s : State) : (s.dropEvent).ie = s.ie := rfl
@[simp] theorem State.dropEvent_found (s : State) : (s.dropEvent).found = s.found := rfl
@[simp] theorem State.dropEvent_done (s : State) : (s.dropEvent).done = s.done := rfl
@[simp] theorem State.dropEvent_errSeen (s : State) : (s.dropEvent).errSeen = s.errSeen := rfl
@[simp] theorem State.dropEvent_lastErr (s : State) : (s.dropEvent).lastErr = s.lastErr := rfl
@[simp] theorem State.dropEvent_cmd (s : State) : (s.dropEvent).cmd = s.cmd := rfl
@[simp] theorem State.dropEvent_dstLen (s : State) : (s.dropEvent).dstLen = s.dstLen := rfl
@[simp] theorem State.dropEvent_msgLen (s : State) : (s.dropEvent).msgLen = s.msgLen := rfl
@[simp] theorem State.dropEvent_mem (s : State) : (s.dropEvent).mem = s.mem := rfl
@[simp] theorem State.dropEvent_inflight (s : State) : (s.dropEvent).inflight = s.inflight := rfl
@[simp] theorem State.dropEvent_held (s : State) : (s.dropEvent).held = s.held := rfl
@[simp] theorem State.dropEvent_hung (s : State) : (s.dropEvent).hung = s.hung := rfl
@[simp] theorem State.dropEvent_agenda (s : State) : (s.dropEvent).agenda = s.agenda.tail := rfl
@[simp] theorem State.dropEvent_busLog (s : State) : (s.dropEvent).busLog = s.busLog := rfl
@[simp] theorem State.dropEvent_portLog (s : State) : (s.dropEvent).portLog = s.portLog := rfl
@[simp] theorem State.dropEvent_draws (s : State) : (s.dropEvent).draws = s.draws := rfl

/-! ### applyReset -/

@[simp] theorem State.applyReset_fregs (s : State) (p : ResetPulse) : (s.applyReset p).fregs = p.regs := rfl
@[simp] theorem State.applyReset_ie (s : State) (p : ResetPulse) : (s.applyReset p).ie = false := rfl
@[simp] theorem State.applyReset_found (s : State) (p : ResetPulse) : (s.applyReset p).found = false := rfl
@[simp] theorem State.applyReset_done (s : State) (p : ResetPulse) : (s.applyReset p).done = false := rfl
@[simp] theorem State.applyReset_errSeen (s : State) (p : ResetPulse) : (s.applyReset p).errSeen = false := rfl
@[simp] theorem State.applyReset_lastErr (s : State) (p : ResetPulse) : (s.applyReset p).lastErr = .none := rfl
@[simp] theorem State.applyReset_cmd (s : State) (p : ResetPulse) : (s.applyReset p).cmd = 0#32 := rfl
@[simp] theorem State.applyReset_dstLen (s : State) (p : ResetPulse) : (s.applyReset p).dstLen = 0#16 := rfl
@[simp] theorem State.applyReset_msgLen (s : State) (p : ResetPulse) : (s.applyReset p).msgLen = 0#16 := rfl
@[simp] theorem State.applyReset_mem (s : State) (p : ResetPulse) : (s.applyReset p).mem = Memory.ofCells p.cells := rfl
@[simp] theorem State.applyReset_inflight (s : State) (p : ResetPulse) : (s.applyReset p).inflight = none := rfl
@[simp] theorem State.applyReset_held (s : State) (p : ResetPulse) : (s.applyReset p).held = none := rfl
@[simp] theorem State.applyReset_hung (s : State) (p : ResetPulse) : (s.applyReset p).hung = none := rfl
@[simp] theorem State.applyReset_agenda (s : State) (p : ResetPulse) : (s.applyReset p).agenda = s.agenda := rfl
@[simp] theorem State.applyReset_busLog (s : State) (p : ResetPulse) : (s.applyReset p).busLog = s.busLog := rfl
@[simp] theorem State.applyReset_portLog (s : State) (p : ResetPulse) : (s.applyReset p).portLog = s.portLog := rfl
@[simp] theorem State.applyReset_draws (s : State) (p : ResetPulse) : (s.applyReset p).draws = s.draws := rfl

/-! ### abandon -/

@[simp] theorem State.abandon_fregs (s : State) (k : Nat) : (s.abandon k).fregs = s.fregs := rfl
@[simp] theorem State.abandon_ie (s : State) (k : Nat) : (s.abandon k).ie = s.ie := rfl
@[simp] theorem State.abandon_found (s : State) (k : Nat) : (s.abandon k).found = s.found := rfl
@[simp] theorem State.abandon_done (s : State) (k : Nat) : (s.abandon k).done = s.done := rfl
@[simp] theorem State.abandon_errSeen (s : State) (k : Nat) : (s.abandon k).errSeen = s.errSeen := rfl
@[simp] theorem State.abandon_lastErr (s : State) (k : Nat) : (s.abandon k).lastErr = s.lastErr := rfl
@[simp] theorem State.abandon_cmd (s : State) (k : Nat) : (s.abandon k).cmd = s.cmd := rfl
@[simp] theorem State.abandon_dstLen (s : State) (k : Nat) : (s.abandon k).dstLen = s.dstLen := rfl
@[simp] theorem State.abandon_msgLen (s : State) (k : Nat) : (s.abandon k).msgLen = s.msgLen := rfl
@[simp] theorem State.abandon_mem (s : State) (k : Nat) : (s.abandon k).mem = s.mem := rfl
@[simp] theorem State.abandon_inflight (s : State) (k : Nat) : (s.abandon k).inflight = s.inflight := rfl
@[simp] theorem State.abandon_held (s : State) (k : Nat) : (s.abandon k).held = s.held := rfl
@[simp] theorem State.abandon_hung (s : State) (k : Nat) : (s.abandon k).hung = s.hung := rfl
@[simp] theorem State.abandon_agenda (s : State) (k : Nat) : (s.abandon k).agenda = s.agenda := rfl
@[simp] theorem State.abandon_busLog (s : State) (k : Nat) : (s.abandon k).busLog = s.busLog := rfl
@[simp] theorem State.abandon_portLog (s : State) (k : Nat) : (s.abandon k).portLog = s.portLog ++ s.inflightCalls.take k := rfl
@[simp] theorem State.abandon_draws (s : State) (k : Nat) : (s.abandon k).draws = s.draws + (s.inflightCalls.take k).countP fun c => c.port == .entropy := rfl

/-! ### dropCompletion: only the agenda changes -/

@[simp] theorem State.dropCompletion_fregs (s : State) : s.dropCompletion.fregs = s.fregs := by
  unfold State.dropCompletion; split <;> rfl
@[simp] theorem State.dropCompletion_ie (s : State) : s.dropCompletion.ie = s.ie := by
  unfold State.dropCompletion; split <;> rfl
@[simp] theorem State.dropCompletion_found (s : State) : s.dropCompletion.found = s.found := by
  unfold State.dropCompletion; split <;> rfl
@[simp] theorem State.dropCompletion_done (s : State) : s.dropCompletion.done = s.done := by
  unfold State.dropCompletion; split <;> rfl
@[simp] theorem State.dropCompletion_errSeen (s : State) : s.dropCompletion.errSeen = s.errSeen := by
  unfold State.dropCompletion; split <;> rfl
@[simp] theorem State.dropCompletion_lastErr (s : State) : s.dropCompletion.lastErr = s.lastErr := by
  unfold State.dropCompletion; split <;> rfl
@[simp] theorem State.dropCompletion_cmd (s : State) : s.dropCompletion.cmd = s.cmd := by
  unfold State.dropCompletion; split <;> rfl
@[simp] theorem State.dropCompletion_dstLen (s : State) : s.dropCompletion.dstLen = s.dstLen := by
  unfold State.dropCompletion; split <;> rfl
@[simp] theorem State.dropCompletion_msgLen (s : State) : s.dropCompletion.msgLen = s.msgLen := by
  unfold State.dropCompletion; split <;> rfl
@[simp] theorem State.dropCompletion_mem (s : State) : s.dropCompletion.mem = s.mem := by
  unfold State.dropCompletion; split <;> rfl
@[simp] theorem State.dropCompletion_inflight (s : State) : s.dropCompletion.inflight = s.inflight := by
  unfold State.dropCompletion; split <;> rfl
@[simp] theorem State.dropCompletion_held (s : State) : s.dropCompletion.held = s.held := by
  unfold State.dropCompletion; split <;> rfl
@[simp] theorem State.dropCompletion_hung (s : State) : s.dropCompletion.hung = s.hung := by
  unfold State.dropCompletion; split <;> rfl
@[simp] theorem State.dropCompletion_busLog (s : State) : s.dropCompletion.busLog = s.busLog := by
  unfold State.dropCompletion; split <;> rfl
@[simp] theorem State.dropCompletion_portLog (s : State) : s.dropCompletion.portLog = s.portLog := by
  unfold State.dropCompletion; split <;> rfl
@[simp] theorem State.dropCompletion_draws (s : State) : s.dropCompletion.draws = s.draws := by
  unfold State.dropCompletion; split <;> rfl

@[simp] theorem State.dropCompletion_complete (s : State) (rest : List Event) (h : s.agenda = .complete :: rest) :
    s.dropCompletion.agenda = rest := by
  simp [State.dropCompletion, h]

/-! ### Reading a field register after a write -/

theorem State.setReg_reg (s : State) (r k : Reg) (v : FieldWord) :
    (s.setReg r v).reg k = if k = r then v else s.reg k := by
  simp only [State.reg, State.setReg]
  by_cases h : k = r
  · subst h; simp
  · rw [if_neg h]
    exact Vector.getElem_set_ne _ _ fun hv => h (Fin.ext hv.symm)

@[simp] theorem State.setReg_reg_self (s : State) (r : Reg) (v : FieldWord) : (s.setReg r v).reg r = v := by
  simp [State.setReg_reg]

theorem State.setReg_reg_of_ne (s : State) {r k : Reg} (v : FieldWord) (h : k ≠ r) :
    (s.setReg r v).reg k = s.reg k := by
  simp [State.setReg_reg, h]

theorem State.setField_reg (s : State) (r k : Reg) (v : Nat) :
    (s.setField r v).reg k = if k = r then BitVec.ofNat 256 v else s.reg k := s.setReg_reg r k _

@[simp] theorem State.setField_reg_self (s : State) (r : Reg) (v : Nat) :
    (s.setField r v).reg r = BitVec.ofNat 256 v := s.setReg_reg_self r _

theorem State.setField_reg_of_ne (s : State) {r k : Reg} (v : Nat) (h : k ≠ r) :
    (s.setField r v).reg k = s.reg k := s.setReg_reg_of_ne _ h

/-- A register reads the same in states that agree on the register file. -/
theorem State.reg_congr {s t : State} (h : t.fregs = s.fregs) (k : Reg) : t.reg k = s.reg k := by
  simp only [State.reg, h]

/-- A byte reads the same in states that agree on the buffers. -/
theorem State.byte_congr {s t : State} (h : t.mem = s.mem) (a : Nat) : t.byte a = s.byte a := by
  simp only [State.byte, h]

@[simp] theorem State.completeOk_reg (s : State) (k : Reg) : s.completeOk.reg k = s.reg k := rfl

@[simp] theorem State.completeOk_byte (s : State) (a : Nat) : s.completeOk.byte a = s.byte a := rfl

@[simp] theorem State.completeError_reg (s : State) (e : ErrCode) (k : Reg) : (s.completeError e).reg k = s.reg k := rfl

@[simp] theorem State.completeError_byte (s : State) (e : ErrCode) (a : Nat) :
    (s.completeError e).byte a = s.byte a := rfl

@[simp] theorem State.setFound_reg (s : State) (v : Bool) (k : Reg) : (s.setFound v).reg k = s.reg k := rfl

@[simp] theorem State.writeOut_reg (s : State) (l : List Byte) (k : Reg) : (s.writeOut l).reg k = s.reg k := rfl

@[simp] theorem State.logHash_reg (s : State) (l : List (List Byte)) (k : Reg) : (s.logHash l).reg k = s.reg k := rfl

@[simp] theorem State.logEntropy_reg (s : State) (k : Reg) : s.logEntropy.reg k = s.reg k := rfl

@[simp] theorem State.setField_byte (s : State) (r : Reg) (v a : Nat) : (s.setField r v).byte a = s.byte a := rfl

end Sys2Proof.Machine
end

