-- ==== Sys2Proof/Laws/Ops.lean ====
section
/-! SUPPORT. One lemma per shared operation of the commands: what its answer can be, and for each command the next state it
gives in each of its cases, to be cited instead of unfolding. -/

namespace Sys2Proof.Machine

/-! ### Values below the modulus -/

theorem p_pos : 0 < Config.p := by decide

theorem p_lt_two_pow : Config.p < 2 ^ 256 := by decide

theorem mod_p_lt (x : Nat) : x % Config.p < Config.p := Nat.mod_lt _ p_pos

/-- A value below `p` is held by a field register as it is. -/
theorem toNat_ofNat_of_lt {x : Nat} (h : x < Config.p) : (BitVec.ofNat 256 x).toNat = x := by
  rw [BitVec.toNat_ofNat]
  exact Nat.mod_eq_of_lt (h.trans p_lt_two_pow)

/-! ### Operands and checks -/

theorem State.canonical_of_lt {s : State} {r : Reg} (h : (s.reg r).toNat < Config.p) :
    s.canonical r = .ok (s.reg r).toNat := by
  simp [State.canonical, h]

theorem State.canonical_of_not_lt {s : State} {r : Reg} (h : ¬ (s.reg r).toNat < Config.p) :
    s.canonical r = .error .nonCanonical := by
  simp [State.canonical, h]

/-- A canonical operand is read, or error 4 is raised. -/
theorem State.canonical_cases (s : State) (r : Reg) :
    ((s.reg r).toNat < Config.p ∧ s.canonical r = .ok (s.reg r).toNat) ∨
    (¬ (s.reg r).toNat < Config.p ∧ s.canonical r = .error .nonCanonical) := by
  by_cases h : (s.reg r).toNat < Config.p
  · exact .inl ⟨h, canonical_of_lt h⟩
  · exact .inr ⟨h, canonical_of_not_lt h⟩

/-- The number of blocks of an output of `n` bytes is over 255 exactly when `n > 8160`. -/
theorem maxBlocks_lt_iff (n : Nat) : Config.maxBlocks < ceilDiv n Config.hashLen ↔ 8160 < n := by
  simp only [Config.maxBlocks, ceilDiv, Config.hashLen]
  omega

/-- The checks before an expansion, as one chain of bounds. -/
theorem State.checkExpansion_eq (s : State) (n : Nat) : s.checkExpansion n =
    if 255 < s.dstLen.toNat then .error .invalidDomainLength
    else if 4096 < s.msgLen.toNat then .error .bounds
    else if 8160 < n then .error .outputLength
    else .ok () := by
  simp only [State.checkExpansion, maxBlocks_lt_iff, Config.dstMax, Config.msgBytes, Config.outBytes]
  by_cases h : 8160 < n
  · simp [h]
  · simp [h, show ¬ 8192 < n by omega]

theorem State.checkExpansion_ok_iff (s : State) (n : Nat) :
    s.checkExpansion n = .ok () ↔ s.dstLen.toNat ≤ 255 ∧ s.msgLen.toNat ≤ 4096 ∧ n ≤ 8160 := by
  rw [State.checkExpansion_eq]
  split
  · simp; omega
  · split
    · simp; omega
    · split
      · simp; omega
      · simp; omega

theorem State.checkExpansion_of_le {s : State} {n : Nat} (hd : s.dstLen.toNat ≤ 255) (hm : s.msgLen.toNat ≤ 4096)
    (hn : n ≤ 8160) : s.checkExpansion n = .ok () :=
  (s.checkExpansion_ok_iff n).mpr ⟨hd, hm, hn⟩

/-! ### How a command ends -/

@[simp] theorem finish_ok (s t : State) : finish s (.ok t) = .next t.completeOk := rfl

@[simp] theorem finish_error (s : State) (e : ErrCode) : finish s (.error e) = .next (s.completeError e) := rfl

/-- A command ends in a completion, successful or with an error, and in nothing else. -/
theorem finish_cases (s : State) (r : Except ErrCode State) :
    (∃ u, r = .ok u ∧ finish s r = .next u.completeOk) ∨
    (∃ e, r = .error e ∧ finish s r = .next (s.completeError e)) := by
  cases r with
  | ok u => exact .inl ⟨u, rfl, rfl⟩
  | error e => exact .inr ⟨e, rfl, rfl⟩

/-- The two ways a next state comes out of a command. -/
theorem finish_next {s t : State} {r : Except ErrCode State} (h : finish s r = .next t) :
    (∃ u, r = .ok u ∧ t = u.completeOk) ∨ (∃ e, r = .error e ∧ t = s.completeError e) := by
  rcases finish_cases s r with ⟨u, hr, hf⟩ | ⟨e, hr, hf⟩
  · exact .inl ⟨u, hr, by simpa using (hf.symm.trans h).symm⟩
  · exact .inr ⟨e, hr, by simpa using (hf.symm.trans h).symm⟩

/-! ### The commands, case by case -/

theorem execFmul_ok {s : State} {ra rb : Reg} (rd : Reg) (ha : (s.reg ra).toNat < Config.p)
    (hb : (s.reg rb).toNat < Config.p) : execFmul rd ra rb s =
      .next (s.setField rd ((s.reg ra).toNat * (s.reg rb).toNat % Config.p)).completeOk := by
  simp [execFmul, State.canonical_of_lt ha, State.canonical_of_lt hb, Bind.bind, Except.bind]

theorem execFmul_error {s : State} {ra rb : Reg} (rd : Reg)
    (h : ¬ (s.reg ra).toNat < Config.p ∨ ¬ (s.reg rb).toNat < Config.p) :
    execFmul rd ra rb s = .next (s.completeError .nonCanonical) := by
  rcases s.canonical_cases ra with ⟨ha, ea⟩ | ⟨ha, ea⟩
  · have hb := h.resolve_left (not_not.mpr ha)
    simp [execFmul, ea, State.canonical_of_not_lt hb, Bind.bind, Except.bind]
  · simp [execFmul, ea, Bind.bind, Except.bind]

theorem execMontmul_ok {s : State} {ra rb : Reg} (rd : Reg) (ha : (s.reg ra).toNat < Config.p)
    (hb : (s.reg rb).toNat < Config.p) : execMontmul rd ra rb s =
      .next (s.setField rd ((s.reg ra).toNat * (s.reg rb).toNat * Config.rInv % Config.p)).completeOk := by
  simp [execMontmul, State.canonical_of_lt ha, State.canonical_of_lt hb, Bind.bind, Except.bind]

theorem execMontmul_error {s : State} {ra rb : Reg} (rd : Reg)
    (h : ¬ (s.reg ra).toNat < Config.p ∨ ¬ (s.reg rb).toNat < Config.p) :
    execMontmul rd ra rb s = .next (s.completeError .nonCanonical) := by
  rcases s.canonical_cases ra with ⟨ha, ea⟩ | ⟨ha, ea⟩
  · have hb := h.resolve_left (not_not.mpr ha)
    simp [execMontmul, ea, State.canonical_of_not_lt hb, Bind.bind, Except.bind]
  · simp [execMontmul, ea, Bind.bind, Except.bind]

theorem execModpow_ok (rd ra rb : Reg) (s : State) : execModpow rd ra rb s =
    .next (s.setField rd (modPow (s.reg ra).toNat (s.reg rb))).completeOk := rfl

theorem execFinv_ok {s : State} {ra : Reg} (rd : Reg) (ha : (s.reg ra).toNat < Config.p)
    (h0 : (s.reg ra).toNat ≠ 0) : execFinv rd ra s =
      .next (s.setField rd (modPow (s.reg ra).toNat (BitVec.ofNat 256 Config.expInv))).completeOk := by
  simp [execFinv, State.canonical_of_lt ha, Bind.bind, Except.bind, h0]

theorem execFinv_zero {s : State} {ra : Reg} (rd : Reg) (h0 : (s.reg ra).toNat = 0) :
    execFinv rd ra s = .next (s.completeError .divisionByZero) := by
  have ha : (s.reg ra).toNat < Config.p := h0 ▸ p_pos
  simp [execFinv, State.canonical_of_lt ha, Bind.bind, Except.bind, h0]

theorem execFinv_error {s : State} {ra : Reg} (rd : Reg) (ha : ¬ (s.reg ra).toNat < Config.p) :
    execFinv rd ra s = .next (s.completeError .nonCanonical) := by
  simp [execFinv, State.canonical_of_not_lt ha, Bind.bind, Except.bind]

theorem execFsqrt_ok {s : State} {ra : Reg} (rd : Reg) (ha : (s.reg ra).toNat < Config.p) : execFsqrt rd ra s =
    .next ((s.setField rd (modPow (s.reg ra).toNat (BitVec.ofNat 256 Config.expSqrt))).setFound
      (modPow (s.reg ra).toNat (BitVec.ofNat 256 Config.expSqrt) *
        modPow (s.reg ra).toNat (BitVec.ofNat 256 Config.expSqrt) % Config.p == (s.reg ra).toNat)).completeOk := by
  simp [execFsqrt, State.canonical_of_lt ha, Bind.bind, Except.bind]

theorem execFsqrt_error {s : State} {ra : Reg} (rd : Reg) (ha : ¬ (s.reg ra).toNat < Config.p) :
    execFsqrt rd ra s = .next (s.completeError .nonCanonical) := by
  simp [execFsqrt, State.canonical_of_not_lt ha, Bind.bind, Except.bind]

theorem execFred_ok (rd ra : Reg) (s : State) : execFred rd ra s =
    .next (s.setField rd ((s.reg ra).toNat % Config.p)).completeOk := rfl

theorem frandWith_ok (bytes : Vector Byte 32) (rd : Reg) (s : State) : frandWith bytes rd s =
    .next (s.logEntropy.setField rd (os2ip bytes.toList % Config.p)).completeOk := rfl

theorem execXmd_ok {s : State} {n : BitVec 16} (h : s.checkExpansion n.toNat = .ok ()) : execXmd n s =
    .next ((s.logHash (s.expand n.toNat).calls).writeOut (s.expand n.toNat).out).completeOk := by
  simp [execXmd, h, Bind.bind, Except.bind]

theorem execXmd_error {s : State} {n : BitVec 16} {e : ErrCode} (h : s.checkExpansion n.toNat = .error e) :
    execXmd n s = .next (s.completeError e) := by
  simp [execXmd, h, Bind.bind, Except.bind]

theorem execH2f_ok {s : State} (rd rd2 : Reg) (h : s.checkExpansion 96 = .ok ()) : execH2f rd rd2 s =
    .next ((((s.logHash (s.expand 96).calls).writeOut (s.expand 96).out).setField rd
      (reduceBytes ((s.expand 96).out.take 48))).setField rd2
        (reduceBytes (((s.expand 96).out.drop 48).take 48))).completeOk := by
  simp [execH2f, Config.count, Config.chunk, h, Bind.bind, Except.bind]

theorem execH2f_error {s : State} (rd rd2 : Reg) {e : ErrCode} (h : s.checkExpansion 96 = .error e) :
    execH2f rd rd2 s = .next (s.completeError e) := by
  simp [execH2f, Config.count, Config.chunk, h, Bind.bind, Except.bind]

theorem execB2f_ok {s : State} {len : BitVec 6} {off : BitVec 14} (rd : Reg) (hl : len.toNat ≤ 48)
    (ho : off.toNat + len.toNat ≤ 8192) : execB2f rd len off s =
      .next (s.setField rd (reduceBytes (s.chunk off.toNat len.toNat))).completeOk := by
  simp [execB2f, Config.b2fMax, Config.outBytes, show ¬ 48 < len.toNat by omega,
    show ¬ 8192 < off.toNat + len.toNat by omega]

theorem execB2f_bounds {s : State} {len : BitVec 6} {off : BitVec 14} (rd : Reg) (hl : len.toNat ≤ 48)
    (ho : 8192 < off.toNat + len.toNat) : execB2f rd len off s = .next (s.completeError .bounds) := by
  simp [execB2f, Config.b2fMax, Config.outBytes, show ¬ 48 < len.toNat by omega, ho]

theorem execB2f_illegal {s : State} {len : BitVec 6} (rd : Reg) (off : BitVec 14) (hl : 48 < len.toNat) :
    execB2f rd len off s = .next (s.completeError .illegal) := by
  simp [execB2f, Config.b2fMax, hl]

/-- An H2F or XMD state keeps the registers, and the like, of the state the expansion started from. -/
theorem State.expand_congr {s t : State} (hm : t.mem = s.mem) (hd : t.dstLen = s.dstLen) (hl : t.msgLen = s.msgLen)
    (n : Nat) : t.expand n = s.expand n := by
  simp only [State.expand, State.domainTag, State.message, hm, hd, hl]

end Sys2Proof.Machine
end

