-- ==== Sys2Proof/Laws/Step.lean ====
section
/-! SUPPORT. What one step can do, said once: the cases of the next turn, the cases of `step`, and what performing an access
can change. -/

namespace Sys2Proof.Machine

/-! ### The next turn -/

/-- What a turn says of the state it is the turn of. -/
def Turn.Says (s : State) : Turn → Prop
  | .reset pulse => ∃ rest, s.agenda = .reset pulse :: rest
  | .hang port => s.inflight.isSome = true ∧ s.hung = none ∧ ∃ rest, s.agenda = .silent port :: rest
  | .stuck _ => s.inflight.isSome = true ∧ s.hung.isSome = true
  | .run w => s.inflight = some w ∧ s.hung = none
  | .release a => s.inflight = none ∧ s.held = some a
  | .hold a => a.interlocked = true ∧ s.held = none ∧ s.inflight.isSome = true ∧ ∃ rest, s.agenda = .access a :: rest
  | .perform a =>
    (s.inflight = none ∨ a.interlocked = false) ∧ s.held = none ∧ ∃ rest, s.agenda = .access a :: rest
  | .skip => ∃ e rest, s.agenda = e :: rest ∧ e.isAccess = false
  | .idle => s.inflight = none ∧ s.held = none ∧ s.agenda = []

/-- What an access that meets a command in flight says: it is held exactly when its range is interlocked. -/
theorem Access.turn_says {s : State} {a : Access} {rest : List Event} (ha : s.agenda = .access a :: rest)
    (hh : s.held = none) (hi : s.inflight.isSome = true) : a.turn.Says s := by
  unfold Access.turn
  cases hl : a.interlocked <;> simp [Turn.Says, ha, hh, hi, hl]

/-- Everything the next turn says of the state. -/
theorem State.turn_says (s : State) : s.turn.Says s := by
  unfold State.turn
  split
  · unfold State.turnBusy
    split
    case h_6 ha hh => exact Access.turn_says ha hh (by simp [*])
    case h_4 => split <;> simp_all [Turn.Says, Event.isAccess]
    all_goals simp_all [Turn.Says]
  · unfold State.turnHung
    split
    case h_6 ha hh => exact Access.turn_says ha hh (by simp [*])
    all_goals simp_all [Turn.Says, Event.isAccess]
  · unfold State.turnIdle
    split <;> simp_all [Turn.Says, Event.isAccess]

/-- A fact about the next turn, from the turn. -/
theorem State.says_of_turn {s : State} {u : Turn} (h : s.turn = u) : u.Says s := h ▸ s.turn_says

theorem State.turn_of_inflight {s : State} {w : Word} (h : s.inflight = some w) (hh : s.hung = none) :
    s.turn = s.turnBusy w := by
  simp [State.turn, h, hh]

theorem State.turn_of_hung {s : State} {w : Word} {p : Port} (h : s.inflight = some w) (hh : s.hung = some p) :
    s.turn = s.turnHung p := by
  simp [State.turn, h, hh]

theorem State.turn_of_idle {s : State} (h : s.inflight = none) : s.turn = s.turnIdle := by
  simp [State.turn, h]

/-- The turn when the host issues an access and none is held: with no command in flight it is performed, else it is held or
performed by its range, whether or not the command hangs. -/
theorem State.turn_of_access {s : State} {a : Access} {rest : List Event} (ha : s.agenda = .access a :: rest)
    (hh : s.held = none) : s.turn = if s.inflight.isSome then a.turn else .perform a := by
  cases hi : s.inflight <;> cases hg : s.hung <;>
    simp [State.turn, State.turnBusy, State.turnHung, State.turnIdle, hi, hg, ha, hh]

/-- The engine moves only with a command in flight whose answers all come, and completes that command. -/
theorem State.turn_run {s : State} {w : Word} (h : s.turn = .run w) : s.inflight = some w ∧ s.hung = none :=
  State.says_of_turn h

/-- An access performed at once while a command is in flight is not interlocked: it is erroneous, or one of ID, CTRL and
STATUS (R58, R62). -/
theorem State.turn_perform {s : State} {a : Access} (h : s.turn = .perform a) :
    s.inflight = none ∨ a.interlocked = false := (State.says_of_turn h).1

/-- A held access is released with no command in flight. -/
theorem State.turn_release {s : State} {a : Access} (h : s.turn = .release a) : s.inflight = none ∧ s.held = some a :=
  State.says_of_turn h

/-! ### One step -/

/-- Everything a step that answers a next state can have done. -/
theorem step_cases {s t : State} (h : step s = .next t) :
    (∃ p, s.turn = .reset p ∧ t = s.dropEvent.takeReset p) ∨
    (∃ p, s.turn = .hang p ∧ t = s.dropEvent.hang p) ∨
    (∃ w, s.turn = .run w ∧ runCommand w s = .next t) ∨
    (∃ a, s.turn = .release a ∧ t = s.release a) ∨
    (∃ a, s.turn = .hold a ∧ t = s.dropEvent.hold a) ∨
    (∃ a, s.turn = .perform a ∧ t = s.dropEvent.perform a) ∨
    (s.turn = .skip ∧ t = s.dropEvent) ∨
    (s.turn = .idle ∧ t = s) := by
  unfold step at h
  split at h <;> simp_all

/-- What running a command word is: the decoded command on the state without the event that called for its completion, or
error 1. -/
theorem runCommand_ok {w : Word} {i : Instr} (h : decode w = .ok i) (s : State) :
    runCommand w s = exec i s.dropCompletion := by
  simp [runCommand, h]

theorem runCommand_error {w : Word} {e : DecodeError} (h : decode w = .error e) (s : State) :
    runCommand w s = .next (s.dropCompletion.completeError .illegal) := by
  simp [runCommand, h]

/-! ### Performing an access -/

theorem State.perform_invalid {s : State} {a : Access} (h : a.valid = false) : s.perform a = s.respond a .error := by
  simp [State.perform, h]

theorem State.perform_read {s : State} {a : Access} (h : a.valid = true) (hr : a.op = .read) :
    s.perform a = s.respond a (.data (s.readWord a.off)) := by
  simp [State.perform, h, hr]

theorem State.perform_write {s : State} {a : Access} {v : Word} (h : a.valid = true) (hw : a.op = .write v) :
    s.perform a = (s.writeWord a.off v).respond a .done := by
  simp [State.perform, h, hw]

/-- A write changes STATUS.DONE and ERRSEEN only downwards, and never FOUND, LASTERR, or what lies outside the block. -/
theorem State.writeWord_status (s : State) (off : BitVec 14) (v : Word) :
    (s.writeWord off v).found = s.found ∧ (s.writeWord off v).lastErr = s.lastErr ∧
    ((s.writeWord off v).done = true → s.done = true) ∧ ((s.writeWord off v).errSeen = true → s.errSeen = true) := by
  unfold State.writeWord
  split <;> simp_all

theorem State.writeWord_ports (s : State) (off : BitVec 14) (v : Word) :
    (s.writeWord off v).held = s.held ∧ (s.writeWord off v).agenda = s.agenda ∧
    (s.writeWord off v).busLog = s.busLog ∧ (s.writeWord off v).portLog = s.portLog ∧
    (s.writeWord off v).draws = s.draws := by
  unfold State.writeWord
  split <;> simp

/-- An access that is performed adds itself and its response to the record of the host bus, and touches no other port. -/
theorem State.perform_ports (s : State) (a : Access) : ∃ r, (s.perform a).busLog = s.busLog ++ [⟨a, r⟩] ∧
    (s.perform a).held = s.held ∧ (s.perform a).agenda = s.agenda ∧ (s.perform a).portLog = s.portLog ∧
    (s.perform a).draws = s.draws := by
  unfold State.perform
  split
  · split
    · exact ⟨_, rfl, rfl, rfl, rfl, rfl⟩
    · rename_i v _
      obtain ⟨hh, ha, hb, hp, hd⟩ := s.writeWord_ports a.off v
      exact ⟨.done, by rw [State.respond_busLog, hb], hh, ha, hp, hd⟩
  · exact ⟨_, rfl, rfl, rfl, rfl, rfl⟩

/-- A write of a range that is not interlocked changes CTRL.IE, DONE and ERRSEEN alone. -/
theorem State.writeWord_not_interlocked {s : State} {off : BitVec 14} {v : Word}
    (h : (regionOf off).interlocked = false) :
    ∃ ie done errSeen, s.writeWord off v = { s with ie := ie, done := done, errSeen := errSeen } ∧
      (done = true → s.done = true) ∧ (errSeen = true → s.errSeen = true) := by
  unfold State.writeWord
  split
  · exact ⟨s.ie, s.done, s.errSeen, rfl, id, id⟩
  · exact ⟨v.getLsbD 0, s.done, s.errSeen, rfl, id, id⟩
  · refine ⟨s.ie, s.done && !v.getLsbD 2, s.errSeen && !v.getLsbD 3, rfl, ?_, ?_⟩ <;>
      · intro hb; exact (Bool.and_eq_true_iff.mp hb).1
  all_goals first
    | (rename_i hr; rw [hr] at h; simp [Region.interlocked] at h; done)
    | exact ⟨s.ie, s.done, s.errSeen, rfl, id, id⟩

/-- The word of a command just placed runs at once, on the state that acceptance left. -/
theorem step_withCommand (s : State) (w : Word) : step (s.withCommand w) = runCommand w (s.withCommand w) := by
  simp [step, State.withCommand, State.accept, State.turn, State.turnBusy]

/-- Dropping the completion that placing a command called for leaves the state after its acceptance. -/
theorem State.withCommand_dropCompletion (s : State) (w : Word) : (s.withCommand w).dropCompletion = s.accept w := rfl

end Sys2Proof.Machine
end

