-- ==== Sys2Proof/Laws/Bus.lean ====
section
/-! SUPPORT. The address map and the bus checks as facts about the offset, so that no proof unfolds the map, and what writing
a word keeps. -/

namespace Sys2Proof.Machine

/-- The unmapped offsets are the two holes of R51. -/
theorem regionOf_eq_unmapped_iff (off : BitVec 14) : regionOf off = .unmapped ↔
    (0x0018 ≤ off.toNat ∧ off.toNat ≤ 0x01FF) ∨ (0x0500 ≤ off.toNat ∧ off.toNat ≤ 0x0FFF) := by
  unfold regionOf
  dsimp only
  repeat' split
  all_goals simp
  all_goals omega

/-- The buffer offsets are those of DST, MSG and OUT. -/
theorem regionOf_eq_buffer_iff (off : BitVec 14) : regionOf off = .buffer ↔
    (0x0400 ≤ off.toNat ∧ off.toNat < 0x0500) ∨ 0x1000 ≤ off.toNat := by
  unfold regionOf
  dsimp only
  repeat' split
  all_goals simp
  all_goals omega

/-- An aligned offset of CMD is CMD's offset. -/
theorem eq_cmd_of_regionOf {off : BitVec 14} (h4 : off.toNat % 4 = 0) (h : regionOf off = .cmd) : off = 0x000C#14 := by
  unfold regionOf at h
  dsimp only at h
  repeat' split at h
  all_goals first
    | (apply BitVec.eq_of_toNat_eq; simp; omega)
    | simp at h

/-- The offsets of the words of the field registers. -/
theorem regionOf_field (k : Reg) (j : Fin 8) :
    regionOf (BitVec.ofNat 14 (0x0200 + 32 * k.val + 4 * j.val)) = .field k j := by
  have hk := k.isLt
  have hj := j.isLt
  have ho : (BitVec.ofNat 14 (0x0200 + 32 * k.val + 4 * j.val)).toNat = 0x0200 + 32 * k.val + 4 * j.val := by
    rw [BitVec.toNat_ofNat]; exact Nat.mod_eq_of_lt (by omega)
  have hkk : (0x0200 + 32 * k.val + 4 * j.val - 0x0200) / 32 = k.val := by omega
  have hjj : (0x0200 + 32 * k.val + 4 * j.val - 0x0200) % 32 / 4 = j.val := by omega
  unfold regionOf
  simp only [ho, hkk, hjj]
  split_ifs <;> first | omega | exact congrArg₂ Region.field (Fin.ofNat_val_eq_self k) (Fin.ofNat_val_eq_self j)

@[simp] theorem regionOf_id : regionOf 0x0000#14 = .id := by decide

@[simp] theorem regionOf_ctrl : regionOf 0x0004#14 = .ctrl := by decide

@[simp] theorem regionOf_status : regionOf 0x0008#14 = .status := by decide

@[simp] theorem regionOf_cmd : regionOf 0x000C#14 = .cmd := by decide

@[simp] theorem regionOf_dstLen : regionOf 0x0010#14 = .dstLen := by decide

@[simp] theorem regionOf_msgLen : regionOf 0x0014#14 = .msgLen := by decide

/-- ID, CTRL and STATUS, the offsets below CMD, are not interlocked. -/
theorem regionOf_not_interlocked {off : BitVec 14} (h : off.toNat < 0x000C) : (regionOf off).interlocked = false := by
  unfold regionOf
  dsimp only
  split
  · rfl
  · split
    · rfl
    · rfl

/-- Every mapped offset from CMD up is interlocked. -/
theorem regionOf_interlocked {off : BitVec 14} (h : 0x000C ≤ off.toNat) (hu : regionOf off ≠ .unmapped) :
    (regionOf off).interlocked = true := by
  rw [ne_eq, regionOf_eq_unmapped_iff] at hu
  unfold regionOf
  simp only
  split_ifs <;> first | rfl | omega

/-- The checks of R55 to R57 as facts. -/
theorem Access.valid_iff (a : Access) : a.valid = true ↔
    a.off.toNat % 4 = 0 ∧ a.enables = 0xF#4 ∧ a.beats = 1 ∧ regionOf a.off ≠ .unmapped := by
  simp [Access.valid, and_assoc]

/-- An erroneous access is not held (R58). -/
theorem Access.not_interlocked_of_invalid {a : Access} (h : a.valid = false) : a.interlocked = false := by
  simp [Access.interlocked, h]

/-- The four offsets of an aligned buffer word are buffer bytes. -/
theorem inBuffer_of_word {off : BitVec 14} (h4 : off.toNat % 4 = 0) (h : regionOf off = .buffer) {i : Nat} (hi : i < 4) :
    inBuffer (off.toNat + i) = true := by
  have hr := (regionOf_eq_buffer_iff off).mp h
  have hlt := off.isLt
  simp only [inBuffer, Bool.or_eq_true, Bool.and_eq_true, decide_eq_true_eq, Config.dstBase, Config.dstBytes,
    Config.msgBase, Config.msgBytes, Config.outBase, Config.outBytes]
  omega

/-- Writing an aligned word keeps the buffers in canonical form. -/
theorem State.writeWord_wf {s : State} (h : s.mem.wf) {off : BitVec 14} (h4 : off.toNat % 4 = 0) (v : Word) :
    (s.writeWord off v).mem.wf := by
  unfold State.writeWord
  split
  case h_8 hr =>
    exact Memory.wf_writeBytes _ h fun i hi => inBuffer_of_word h4 hr (by simpa [unpackWord] using hi)
  all_goals exact h

/-- Performing an access keeps the buffers in canonical form. -/
theorem State.perform_wf {s : State} (h : s.mem.wf) (a : Access) : (s.perform a).mem.wf := by
  unfold State.perform
  split
  · rename_i hv
    split
    · exact h
    · exact State.writeWord_wf h ((Access.valid_iff a).mp hv).1 _
  · exact h

end Sys2Proof.Machine
end

