-- ==== Sys2Proof/Laws/Encoding.lean ====
section
/-! SUPPORT. The three formats as numbers, and the field readers on them: each reader gives back the field the format put
there. -/

namespace Sys2Proof

theorem toNat_append_eq {m n : Nat} (x : BitVec m) (y : BitVec n) : (x ++ y).toNat = x.toNat * 2 ^ n + y.toNat := by
  rw [BitVec.toNat_append, ← Nat.shiftLeft_add_eq_or_of_lt y.isLt, Nat.shiftLeft_eq]

/-- Format R as one number (R81, R86). -/
theorem toNat_formatR (op : BitVec 8) (rd ra rb : BitVec 4) : (formatR op rd ra rb).toNat =
    op.toNat * 2 ^ 24 + rd.toNat * 2 ^ 20 + ra.toNat * 2 ^ 16 + rb.toNat * 2 ^ 12 := by
  have h : (formatR op rd ra rb).toNat = (op ++ rd ++ ra ++ rb ++ 0#12).toNat := rfl
  rw [h]
  simp only [toNat_append_eq, BitVec.toNat_ofNat]
  omega

/-- Format X as one number (R82, R86). -/
theorem toNat_formatX (op : BitVec 8) (n : BitVec 16) : (formatX op n).toNat = op.toNat * 2 ^ 24 + n.toNat := by
  have h : (formatX op n).toNat = (op ++ 0#8 ++ n).toNat := rfl
  rw [h]
  simp only [toNat_append_eq, BitVec.toNat_ofNat]
  omega

/-- Format B as one number (R83, R86). -/
theorem toNat_formatB (op : BitVec 8) (rd : BitVec 4) (len : BitVec 6) (off : BitVec 14) :
    (formatB op rd len off).toNat = op.toNat * 2 ^ 24 + rd.toNat * 2 ^ 20 + len.toNat * 2 ^ 14 + off.toNat := by
  have h : (formatB op rd len off).toNat = (op ++ rd ++ len ++ off).toNat := rfl
  rw [h]
  simp only [toNat_append_eq]
  omega

/-! ### The field readers, as arithmetic on the word -/

theorem toNat_opcodeOf (w : Word) : (opcodeOf w).toNat = w.toNat / 2 ^ 24 := by
  have := w.isLt
  simp only [opcodeOf, BitVec.extractLsb'_toNat, Nat.shiftRight_eq_div_pow]
  omega

theorem val_rdOf (w : Word) : (rdOf w).val = w.toNat / 2 ^ 20 % 16 := by
  simp [rdOf, Nat.shiftRight_eq_div_pow]

theorem val_raOf (w : Word) : (raOf w).val = w.toNat / 2 ^ 16 % 16 := by
  simp [raOf, Nat.shiftRight_eq_div_pow]

theorem val_rbOf (w : Word) : (rbOf w).val = w.toNat / 2 ^ 12 % 16 := by
  simp [rbOf, Nat.shiftRight_eq_div_pow]

theorem toNat_nOf (w : Word) : (nOf w).toNat = w.toNat % 2 ^ 16 := by
  simp [nOf, BitVec.extractLsb'_toNat]

theorem toNat_lenOf (w : Word) : (lenOf w).toNat = w.toNat / 2 ^ 14 % 2 ^ 6 := by
  simp [lenOf, BitVec.extractLsb'_toNat, Nat.shiftRight_eq_div_pow]

theorem toNat_offOf (w : Word) : (offOf w).toNat = w.toNat % 2 ^ 14 := by
  simp [offOf, BitVec.extractLsb'_toNat]

/-- A must-be-zero field is zero exactly when its number is. -/
theorem extract_eq_zero_iff (w : Word) (lo size : Nat) :
    w.extractLsb' lo size = 0 ↔ w.toNat / 2 ^ lo % 2 ^ size = 0 := by
  rw [← BitVec.toNat_inj]
  simp [BitVec.extractLsb'_toNat, Nat.shiftRight_eq_div_pow]

/-- The number of a register field. -/
@[simp] theorem toNat_regBits (r : Reg) : (regBits r).toNat = r.val := rfl

end Sys2Proof
end

