-- ==== Sys2Proof/Laws/PerInstr.lean ====
section
/-! SUPPORT. The family of statements made for every instruction: the encoding of a command is selected by its own row of the
opcode map, under the row's full mask (spec/30_encoding.md R85). -/

namespace Sys2Proof.Laws

/-- The word of `i` selects the row of `i`: `w AND mask = match` (R85). -/
def RowSelects.Statement (i : Instr) : Prop := encode i &&& i.maskBits = i.matchBits

/-- A Format R word under a mask given field by field. -/
theorem formatR_and (op : BitVec 8) (rd ra rb : BitVec 4) (m0 : BitVec 8) (m1 m2 m3 : BitVec 4) (m4 : BitVec 12) :
    formatR op rd ra rb &&& (m0 ++ m1 ++ m2 ++ m3 ++ m4 : BitVec 32) =
      ((op &&& m0) ++ (rd &&& m1) ++ (ra &&& m2) ++ (rb &&& m3) ++ (0#12 &&& m4) : BitVec 32) := by
  have h : formatR op rd ra rb = op ++ rd ++ ra ++ rb ++ 0#12 := rfl
  rw [h]
  exact BitVec.and_append.trans (by rw [BitVec.and_append, BitVec.and_append, BitVec.and_append])

theorem RowSelects.fmul (rd ra rb : Reg) : RowSelects.Statement (.fmul rd ra rb) := by
  refine (formatR_and 0x01#8 _ _ _ 0xFF#8 0#4 0#4 0#4 0xFFF#12).trans ?_
  simp only [BitVec.and_zero]; rfl

theorem RowSelects.montmul (rd ra rb : Reg) : RowSelects.Statement (.montmul rd ra rb) := by
  refine (formatR_and 0x02#8 _ _ _ 0xFF#8 0#4 0#4 0#4 0xFFF#12).trans ?_
  simp only [BitVec.and_zero]; rfl

theorem RowSelects.modpow (rd ra rb : Reg) : RowSelects.Statement (.modpow rd ra rb) := by
  refine (formatR_and 0x03#8 _ _ _ 0xFF#8 0#4 0#4 0#4 0xFFF#12).trans ?_
  simp only [BitVec.and_zero]; rfl

theorem RowSelects.finv (rd ra : Reg) : RowSelects.Statement (.finv rd ra) := by
  refine (formatR_and 0x04#8 _ _ _ 0xFF#8 0#4 0#4 0xF#4 0xFFF#12).trans ?_
  simp only [BitVec.and_zero]; rfl

theorem RowSelects.fsqrt (rd ra : Reg) : RowSelects.Statement (.fsqrt rd ra) := by
  refine (formatR_and 0x05#8 _ _ _ 0xFF#8 0#4 0#4 0xF#4 0xFFF#12).trans ?_
  simp only [BitVec.and_zero]; rfl

theorem RowSelects.fred (rd ra : Reg) : RowSelects.Statement (.fred rd ra) := by
  refine (formatR_and 0x06#8 _ _ _ 0xFF#8 0#4 0#4 0xF#4 0xFFF#12).trans ?_
  simp only [BitVec.and_zero]; rfl

theorem RowSelects.frand (rd : Reg) : RowSelects.Statement (.frand rd) := by
  refine (formatR_and 0x07#8 _ _ _ 0xFF#8 0#4 0xF#4 0xF#4 0xFFF#12).trans ?_
  simp only [BitVec.and_zero]; rfl

theorem RowSelects.xmd (n : BitVec 16) : RowSelects.Statement (.xmd n) := by
  have h : formatX 0x10#8 n = (0x10#8 ++ 0#8 : BitVec 16) ++ n := rfl
  have hm : (0xFFFF0000#32) = (0xFFFF#16 ++ 0#16 : BitVec 32) := rfl
  show formatX 0x10#8 n &&& 0xFFFF0000#32 = _
  rw [h, hm]
  refine BitVec.and_append.trans ?_
  rw [BitVec.and_zero]; rfl

theorem RowSelects.h2f (rd rd2 : Reg) : RowSelects.Statement (.h2f rd rd2) := by
  refine (formatR_and 0x11#8 _ _ _ 0xFF#8 0#4 0#4 0xF#4 0xFFF#12).trans ?_
  simp only [BitVec.and_zero]; rfl

theorem RowSelects.b2f (rd : Reg) (len : BitVec 6) (off : BitVec 14) : RowSelects.Statement (.b2f rd len off) := by
  have h : formatB 0x12#8 (regBits rd) len off = 0x12#8 ++ regBits rd ++ len ++ off := rfl
  have hm : (0xFF000000#32) = (0xFF#8 ++ 0#4 ++ 0#6 ++ 0#14 : BitVec 32) := rfl
  show formatB 0x12#8 (regBits rd) len off &&& 0xFF000000#32 = _
  rw [h, hm]
  refine BitVec.and_append.trans ?_
  rw [BitVec.and_append, BitVec.and_append]
  simp only [BitVec.and_zero]; rfl

end Sys2Proof.Laws
end

