-- ==== Sys2Proof/Laws/Prime.lean ====
section
/-! SUPPORT. The modulus is prime (spec/00_scope.md R6, spec/91_not_in_source.md N3): a certificate by Lucas' test, one
prime factor of `q - 1` at a time, each power computed by repeated squaring. -/

namespace Sys2Proof.Laws

/-- `b ^ e mod m` by repeated squaring over the lowest `fuel` bits of `e`. -/
def powMod (m : Nat) : (fuel e b : Nat) → Nat
  | 0, _, _ => 1 % m
  | fuel + 1, e, b =>
    let half := powMod m fuel (e / 2) (b * b % m)
    if e % 2 = 0 then half else half * b % m

theorem powMod_eq (m : Nat) : ∀ (fuel e b : Nat), e < 2 ^ fuel → powMod m fuel e b = b ^ e % m := by
  intro fuel
  induction fuel with
  | zero =>
    intro e b h
    obtain rfl : e = 0 := by simpa using h
    simp [powMod]
  | succ fuel ih =>
    intro e b h
    have hh : e / 2 < 2 ^ fuel := by rw [pow_succ] at h; omega
    have hsq : (b * b % m) ^ (e / 2) % m = b ^ (2 * (e / 2)) % m := by
      rw [← Nat.pow_mod, pow_mul, pow_two]
    simp only [powMod, ih _ _ hh, hsq]
    split
    · rename_i he; rw [show 2 * (e / 2) = e by omega]
    · rename_i he
      rw [Nat.mod_mul_mod, ← pow_succ, show 2 * (e / 2) + 1 = e by omega]

/-- The check of one certificate: `g` has order `q - 1` modulo `q`, tested on the listed prime factors of `q - 1`. -/
def lucasCheck (q g : Nat) (factors : List Nat) : Bool :=
  factors.prod == q - 1 && decide (1 < q) && powMod q 300 (q - 1) g == 1 && decide (q < 2 ^ 300) &&
  factors.all fun r => powMod q 300 ((q - 1) / r) g != 1

theorem prime_of_lucasCheck {q g : Nat} {factors : List Nat} (h : lucasCheck q g factors = true)
    (hp : ∀ r ∈ factors, r.Prime) : q.Prime := by
  simp only [lucasCheck, Bool.and_eq_true, beq_iff_eq, decide_eq_true_eq, List.all_eq_true, bne_iff_ne, ne_eq] at h
  obtain ⟨⟨⟨⟨hprod, h1⟩, hpow⟩, hlt⟩, hne⟩ := h
  have cast_pow (e : Nat) (he : e < 2 ^ 300) : ((g : ZMod q) ^ e = 1 ↔ powMod q 300 e g = 1) := by
    have h1' : 1 % q = 1 := Nat.mod_eq_of_lt h1
    rw [powMod_eq q 300 e g he, ← Nat.cast_pow, ← Nat.cast_one (R := ZMod q), ZMod.natCast_eq_natCast_iff', h1']
  refine lucas_primality q (g : ZMod q) ((cast_pow _ (by omega)).mpr hpow) fun r hr hdvd => ?_
  rw [← hprod] at hdvd
  obtain ⟨a, ha, hra⟩ := (Nat.Prime.prime hr).dvd_prod_iff.mp hdvd
  obtain rfl := (Nat.prime_dvd_prime_iff_eq hr (hp a ha)).mp hra
  rw [ne_eq, cast_pow _ (lt_of_le_of_lt (Nat.div_le_self _ _) (by omega))]
  exact hne r ha

theorem prime_173171039 : Nat.Prime 173171039 :=
  prime_of_lucasCheck (g := 13) (factors := [2, 73, 89, 13327]) (by decide +kernel) (by
    simp only [List.forall_mem_cons, List.not_mem_nil, false_implies, implies_true]
    and_intros <;> norm_num)

theorem prime_1263766531 : Nat.Prime 1263766531 :=
  prime_of_lucasCheck (g := 10) (factors := [2, 3, 5, 13, 911, 3557]) (by decide +kernel) (by
    simp only [List.forall_mem_cons, List.not_mem_nil, false_implies, implies_true]
    and_intros <;> norm_num)

theorem prime_405928799 : Nat.Prime 405928799 :=
  prime_of_lucasCheck (g := 22) (factors := [2, 11, 3691, 4999]) (by decide +kernel) (by
    simp only [List.forall_mem_cons, List.not_mem_nil, false_implies, implies_true]
    and_intros <;> norm_num)

theorem prime_35385462869 : Nat.Prime 35385462869 :=
  prime_of_lucasCheck (g := 2) (factors := [2, 2, 7, 1263766531]) (by decide +kernel) (by
    simp only [List.forall_mem_cons, List.not_mem_nil, false_implies, implies_true]
    and_intros <;> first | exact prime_1263766531 | norm_num)

theorem prime_2480874801745591 : Nat.Prime 2480874801745591 :=
  prime_of_lucasCheck (g := 6) (factors := [2, 3, 3, 5, 19, 41, 35385462869]) (by decide +kernel) (by
    simp only [List.forall_mem_cons, List.not_mem_nil, false_implies, implies_true]
    and_intros <;> first | exact prime_35385462869 | norm_num)

theorem prime_13427688667394608761327070753331941386769 :
    Nat.Prime 13427688667394608761327070753331941386769 :=
  prime_of_lucasCheck (g := 17)
    (factors := [2, 2, 2, 2, 3, 7, 11, 1853641, 4562087, 173171039, 2480874801745591]) (by decide +kernel) (by
    simp only [List.forall_mem_cons, List.not_mem_nil, false_implies, implies_true]
    and_intros <;> first | exact prime_173171039 | exact prime_2480874801745591 | norm_num)

theorem prime_11465965001 : Nat.Prime 11465965001 :=
  prime_of_lucasCheck (g := 3) (factors := [2, 2, 2, 5, 5, 5, 5, 7, 327599]) (by decide +kernel) (by
    simp only [List.forall_mem_cons, List.not_mem_nil, false_implies, implies_true]
    and_intros <;> norm_num)

/-- `p` is prime (R6). -/
theorem prime_p : Nat.Prime Config.p :=
  prime_of_lucasCheck (g := 3)
    (factors := [2, 3, 3, 13, 29, 67, 229, 311, 983, 11003, 405928799, 11465965001,
      13427688667394608761327070753331941386769]) (by decide +kernel) (by
    simp only [List.forall_mem_cons, List.not_mem_nil, false_implies, implies_true]
    and_intros <;> first | exact prime_405928799 | exact prime_11465965001 | exact prime_13427688667394608761327070753331941386769 | norm_num)

end Sys2Proof.Laws
end

