-- ==== Sys2Proof/Tests/Slice0.lean ====
section
/-! SUPPORT. The model's own tests: one step each, expected results from spec/95_test_vectors.md and the examples of the
rules (each test names its source), and for every statement with hypotheses a witness that meets them. -/

namespace Sys2Proof.Tests

set_option Elab.async false

open Sys2Proof Sys2Proof.Machine Sys2Proof.Safety

/-! ### Helpers -/

/-- The reset state with these field register values. -/
def regsState (l : List (Reg × Nat)) : State := l.foldl (fun s c => s.setField c.1 c.2) State.reset

/-- The state after a next outcome, or the state before it. -/
def after (s : State) : Host.Outcome State Fault Refusal → State
  | .next t => t
  | .fault _ => s
  | .refused _ => s

/-- The fault of an outcome. -/
def faultOf : Host.Outcome State Fault Refusal → Option Fault
  | .next _ => none
  | .fault f => some f
  | .refused _ => none

/-- What a command leaves in a field register, and its error code. -/
def fieldAfter (i : Instr) (s : State) (k : Reg) : Nat × ErrCode :=
  let t := after s (exec i s)
  ((t.reg k).toNat, t.lastErr)

/-- Cells for a byte string from an offset up. -/
def cellsAt (a : Nat) (l : List Byte) : List Host.Cell := (List.range l.length).map fun i => (a + i, l.getD i 0#8)

/-- `TAG`, the 43 bytes of E1. -/
def tagBytes : List Byte :=
  [0x42, 0x4c, 0x53, 0x5f, 0x53, 0x49, 0x47, 0x5f, 0x42, 0x4e, 0x32, 0x35, 0x34, 0x47, 0x31, 0x5f, 0x58, 0x4d, 0x44,
   0x3a, 0x4b, 0x45, 0x43, 0x43, 0x41, 0x4b, 0x2d, 0x32, 0x35, 0x36, 0x5f, 0x53, 0x53, 0x57, 0x55, 0x5f, 0x52, 0x4f,
   0x5f, 0x4e, 0x55, 0x4c, 0x5f].map (BitVec.ofNat 8)

/-- `MSG10`, the message of E1. -/
def msgBytes : List Byte := [0x39, 0xa9, 0x8b, 0x55, 0x14, 0x92, 0x98, 0x73, 0x8d, 0xac].map (BitVec.ofNat 8)

/-- The scenario of E1: `TAG` in DST and `MSG10` in MSG. -/
def scenario : State :=
  { State.reset with
    dstLen := 43#16, msgLen := 10#16, mem := Memory.ofCells (cellsAt 0x0400 tagBytes ++ cellsAt 0x1000 msgBytes) }

/-- The reset state with this command word in flight and these events to come. -/
def inFlight (w : Word) (events : List Event) : State :=
  { State.reset with cmd := w, inflight := some w, agenda := events }

/-- The reset state, idle, with these events to come. -/
def idle (events : List Event) : State := { State.reset with agenda := events }

/-! ### Constants (R7) -/

theorem test_derived_constants :
    Config.expInv = Config.p - 2 ∧ Config.expSqrt * 4 = Config.p + 1 ∧ Config.half * 2 = Config.p - 1 ∧
    Config.rModP = 2 ^ 256 % Config.p ∧ Config.r2ModP = 2 ^ 512 % Config.p ∧
    Config.rInv * 2 ^ 256 % Config.p = 1 ∧ Config.rInv < Config.p ∧
    (Config.pPrime * Config.p + 1) % 2 ^ 256 = 0 ∧ Config.pPrime < 2 ^ 256 ∧ Config.p % 4 = 3 := by decide +kernel

/-! ### Well-formedness and decoding (R81 to R89; words from R86, R104 to R110, R147, R170, R171, V-B9, V-E6, V-H6) -/

theorem test_wellFormed_refuses_length_49 : (Instr.b2f 5 49 0).wellFormed = false := by decide

theorem test_wellFormed_takes_length_48 : (Instr.b2f 5 48 8145).wellFormed = true := by decide

/-- opcode 00000001, rd 0011, ra 0001, rb 0010, zero. -/
theorem test_decode_fmul : decode 0b00000001001100010010000000000000#32 = .ok (.fmul 3 1 2) := by decide

/-- opcode 00000010, rd 0011, ra 0001, rb 0010, zero. -/
theorem test_decode_montmul : decode 0b00000010001100010010000000000000#32 = .ok (.montmul 3 1 2) := by decide

/-- opcode 00000011, rd 0011, ra 0001, rb 0010, zero. -/
theorem test_decode_modpow : decode 0b00000011001100010010000000000000#32 = .ok (.modpow 3 1 2) := by decide

/-- opcode 00000100, rd 0010, ra 0001, zero. -/
theorem test_decode_finv : decode 0b00000100001000010000000000000000#32 = .ok (.finv 2 1) := by decide

/-- opcode 00000101, rd 0010, ra 0001, zero. -/
theorem test_decode_fsqrt : decode 0b00000101001000010000000000000000#32 = .ok (.fsqrt 2 1) := by decide

/-- opcode 00000110, rd 0010, ra 0001, zero. -/
theorem test_decode_fred : decode 0b00000110001000010000000000000000#32 = .ok (.fred 2 1) := by decide

/-- opcode 00000111, rd 0100, zero. -/
theorem test_decode_frand : decode 0b00000111010000000000000000000000#32 = .ok (.frand 4) := by decide

/-- opcode 00010000, zero, n = 8160 = 0001111111100000 (V-X10). -/
theorem test_decode_xmd : decode 0b00010000000000000001111111100000#32 = .ok (.xmd 8160) := by decide

/-- opcode 00010001, rd 0101, rd2 0101, zero (V-H3). -/
theorem test_decode_h2f : decode 0b00010001010101010000000000000000#32 = .ok (.h2f 5 5) := by decide

/-- opcode 00010010, rd 0001, len 000001, off 00000000000101 (V-B10). -/
theorem test_decode_b2f : decode 0b00010010000100000100000000000101#32 = .ok (.b2f 1 1 5) := by decide

theorem test_decode_illegal :
    decode 0x00000000#32 = .error (.undefinedOpcode 0x00#8) ∧ decode 0x13000000#32 = .error (.undefinedOpcode 0x13#8) ∧
    decode 0x01312001#32 = .error .nonZeroField ∧ decode 0x07400001#32 = .error .nonZeroField ∧
    decode 0x10010060#32 = .error .nonZeroField ∧ decode 0x11010001#32 = .error .nonZeroField ∧
    decode 0x125C4000#32 = .error (.reservedLength 49#6) := by decide

theorem test_encode_b2f : encode (.b2f 3 48 48) = 0x123C0030#32 ∧ encode (.b2f 5 48 8144) = 0x125C1FD0#32 := by decide

theorem test_decodeTableWord : decodeTableWord 32 0x125C1FD1 = some (.b2f 5 48 8145) ∧
    decodeTableWord 32 0x01312001 = none := by decide

theorem test_asm : (Instr.fmul 3 1 2).asm = "FMUL F3, F1, F2" ∧ (Instr.b2f 3 48 48).asm = "B2F F3, 48, 48" := by
  decide +kernel

/-! ### The commands (spec/95_test_vectors.md Part 2) -/

def aVal : Nat := 0x1234567890abcdef1234567890abcdef1234567890abcdef1234567890abcdef

def bVal : Nat := 0x0fedcba9876543210fedcba9876543210fedcba9876543210fedcba987654321

/-- V-M5. -/
theorem test_fmul_reduces_full_product : fieldAfter (.fmul 3 1 2) (regsState [(1, aVal), (2, bVal)]) 3 =
    (0x189a069642c51258b3664432deef061fedd81f5a66960e0ef6f104cc7e6deced, .none) := by decide +kernel

/-- V-M7, V-M8. -/
theorem test_fmul_refuses_and_squares :
    fieldAfter (.fmul 3 1 2) (regsState [(1, 1), (2, 2 ^ 256 - 1), (3, 77)]) 3 = (77, .nonCanonical) ∧
    fieldAfter (.fmul 1 1 1) (regsState [(1, 3)]) 1 = (9, .none) := by decide +kernel

/-- V-N3, V-N4. -/
theorem test_montmul_into_and_out_of_form :
    fieldAfter (.montmul 3 1 2) (regsState [(1, aVal), (2, Config.r2ModP)]) 3 =
      (0x16db3787c008bbc00870a59497036f7f43e71fc1218341741c7bc7cc0ceb3313, .none) ∧
    fieldAfter (.montmul 3 1 2)
      (regsState [(1, 0x16db3787c008bbc00870a59497036f7f43e71fc1218341741c7bc7cc0ceb3313), (2, 1)]) 3 =
      (aVal, .none) := by decide +kernel

/-- V-N9. -/
theorem test_montmul_refuses_p : fieldAfter (.montmul 3 1 2) (regsState [(1, Config.p), (2, 1), (3, 5)]) 3 =
    (5, .nonCanonical) := by decide +kernel

/-- V-P3, V-P4. -/
theorem test_modpow_raw_operands :
    fieldAfter (.modpow 3 1 2) (regsState [(1, 2), (2, 2 ^ 256 - 1)]) 3 =
      (0x0cbac296ccd942dd566b97a8fa160c4830ccdf0c0ba1c1f21816c7abab5011f9, .none) ∧
    fieldAfter (.modpow 3 1 2) (regsState [(1, 2 ^ 256 - 1), (2, 2)]) 3 =
      (0x1b27fe6177da16ea331e1dd69ad04bfc3876ad515128b60d88930156a0e9dc97, .none) := by decide +kernel

/-- V-P7, V-P9, V-P10. -/
theorem test_modpow_zero_cases :
    fieldAfter (.modpow 3 1 2) (regsState [(3, 9)]) 3 = (1, .none) ∧
    fieldAfter (.modpow 3 1 2) (regsState [(1, Config.p), (3, 9)]) 3 = (1, .none) ∧
    fieldAfter (.modpow 3 1 2) (regsState [(2, Config.p - 2), (3, 9)]) 3 = (0, .none) := by decide +kernel

/-- V-I3. -/
theorem test_finv_of_a : fieldAfter (.finv 2 1) (regsState [(1, aVal)]) 2 =
    (0x095d995fdf74f443555ea182a995ca84af8f32d16e1a26070063360add994601, .none) := by decide +kernel

/-- V-I8, V-I9. -/
theorem test_finv_refuses_zero_and_p :
    fieldAfter (.finv 2 1) (regsState [(2, 5)]) 2 = (5, .divisionByZero) ∧
    fieldAfter (.finv 2 1) (regsState [(1, Config.p), (2, 5)]) 2 = (5, .nonCanonical) := by decide +kernel

/-- V-S7: the root of 9 is `p - 3`, in place. -/
theorem test_fsqrt_of_nine_in_place : fieldAfter (.fsqrt 1 1) (regsState [(1, 9)]) 1 = (Config.p - 3, .none) ∧
    (after State.reset (exec (.fsqrt 1 1) (regsState [(1, 9)]))).found = true := by decide +kernel

/-- V-S9: a non-residue writes its candidate, without error. -/
theorem test_fsqrt_of_nonresidue : fieldAfter (.fsqrt 2 1) (regsState [(1, aVal)]) 2 =
      (0x2807c8794f3b8f9abce11cc34a0f8812868e103f9b9896c26fccdcf9c047961c, .none) ∧
    (after State.reset (exec (.fsqrt 2 1) { regsState [(1, aVal)] with found := true })).found = false := by
  decide +kernel

/-- V-R2, V-R4. -/
theorem test_fred :
    fieldAfter (.fred 2 1) (regsState [(1, 2 ^ 256 - 1)]) 2 =
      (0x0e0a77c19a07df2f666ea36f7879462c0a78eb28f5c70b3dd35d438dc58f0d9c, .none) ∧
    fieldAfter (.fred 2 1)
      (regsState [(1, 0xf1f5883e65f820d099915c908786b9d3f58714d70a38f4c22ca2bc723a70f26a)]) 2 = (7, .none) := by
  decide +kernel

/-- V-D4, on the bytes the entropy port gives. -/
theorem test_frand_reduces_entropy :
    ((after State.reset (frandWith (Vector.replicate 32 0xff#8) 4 State.reset)).reg 4).toNat =
      0x0e0a77c19a07df2f666ea36f7879462c0a78eb28f5c70b3dd35d438dc58f0d9c := by decide +kernel

/-- V-D2: the last byte is the least significant. -/
theorem test_frand_is_big_endian :
    ((after State.reset (frandWith (.set (Vector.replicate 32 0x00#8) 31 0x01#8) 4 State.reset)).reg 4).toNat = 1 := by
  decide +kernel

/-- V-K1: Keccak-256 of the empty string. -/
theorem test_keccak_empty : os2ip (hash []) = 0xc5d2460186f7233c927e7db2dcc703c0e500b653ca82273b7bfad8045d85a470 := by
  decide +kernel

/-- R195: the rotation offsets along the rule's walk. -/
theorem test_rotation_offsets_walk :
    rotationOffsets.getD 0 1 = 0 ∧
    ((List.range 24).foldl (fun (acc : Bool × Nat × Nat) t =>
      (acc.1 && rotationOffsets.getD (acc.2.1 + 5 * acc.2.2) 64 == (t + 1) * (t + 2) / 2 % 64,
        acc.2.2, (2 * acc.2.1 + 3 * acc.2.2) % 5)) (true, 1, 0)).1 = true := by decide +kernel

/-- The LFSR of R196, `t` steps from the state 1. -/
def lfsr (t : Nat) : Nat :=
  (List.range t).foldl (fun r _ => if r < 128 then 2 * r else (2 * r) ^^^ 0x171) 1

/-- R196: the round constants from the LFSR. -/
theorem test_round_constants_lfsr : (List.range 24).all (fun ir =>
    (roundConstants.getD ir 0#64).toNat ==
      ((List.range 7).map fun j => (lfsr (j + 7 * ir)) % 2 * 2 ^ (2 ^ j - 1)).sum) = true := by decide +kernel

/-- V-X5: 33 bytes, two output blocks, three hash calls of 193, 77 and 77 bytes; `OUT[33]` is not written. -/
theorem test_xmd_33 :
    let t := after State.reset (exec (.xmd 33) scenario)
    os2ip (t.mem.readBytes 0x2000 34) = 0xb3e7251f5a6df4976e829ca862cfb711b5ae20f6b785e51a9d1afcba8706cca03d00 ∧
    t.portLog.map (fun c => match c with | .hash s => s.length | .entropy _ => 0) = [193, 77, 77] := by decide +kernel

/-- V-E4, V-E2. -/
theorem test_xmd_errors :
    (after State.reset (exec (.xmd 8161) { scenario with msgLen := 4096#16 })).lastErr = .outputLength ∧
    (after State.reset (exec (.xmd 96) { scenario with dstLen := 256#16, msgLen := 5000#16 })).lastErr =
      .invalidDomainLength := by decide +kernel

/-- V-H1. -/
theorem test_h2f_scenario :
    let t := after State.reset (exec (.h2f 0 1) scenario)
    (t.reg 0).toNat = 0x0fd8f8fe74593b94950e02eea01741d090927d1e2350ade783791d78760bc404 ∧
    (t.reg 1).toNat = 0x2fc6e744a0410335f8887e36bcc2d196d4e7f2d2a964511950b62fba63fa64bc ∧
    t.readWord 0x2000#14 = 0xDB8093BA#32 ∧ t.readWord 0x205C#14 = 0x39F13BB0#32 := by decide +kernel

/-- V-H5. -/
theorem test_h2f_bounds : (after State.reset (exec (.h2f 0 1) { scenario with msgLen := 4097#16 })).lastErr = .bounds := by
  decide +kernel

/-- V-B4: bytes 1 to 48. -/
theorem test_b2f_48_bytes :
    fieldAfter (.b2f 0 48 0)
      { State.reset with mem := Memory.ofCells (cellsAt 0x2000 ((List.range 48).map fun i => BitVec.ofNat 8 (i + 1))) } 0 =
      (0x199caf92cd395ea51e1cc2ee0b94c5d24042b346f153bfef87bb0b43b5c5e35a, .none) := by decide +kernel

/-- V-B6, V-B8, V-B9. -/
theorem test_b2f_bounds :
    fieldAfter (.b2f 5 0 8192) (regsState [(5, 9)]) 5 = (0, .none) ∧
    fieldAfter (.b2f 5 48 8145) (regsState [(5, 9)]) 5 = (9, .bounds) ∧
    fieldAfter (.b2f 5 49 0) (regsState [(5, 9)]) 5 = (9, .illegal) := by decide +kernel

/-! ### Status, interrupt and bus (V-T1 to V-T13, Program 1, Program 2) -/

/-- V-T1. -/
theorem test_reset_words :
    State.reset.readWord 0x0000#14 = 0x534C4231#32 ∧ State.reset.readWord 0x0008#14 = 0#32 ∧
    State.reset.irq = false := by decide

/-- V-T3, V-T4, V-T5, V-T7. -/
theorem test_status_words :
    let s2C := State.reset.completeError .invalidDomainLength
    s2C.statusWord = 0x2C#32 ∧ (s2C.writeStatus 0xC#32).statusWord = 0x20#32 ∧ s2C.completeOk.statusWord = 0xC#32 ∧
    (State.setFound State.reset true).completeOk.statusWord = 0x6#32 := by decide

/-- V-T8, V-T9, V-T10. -/
theorem test_irq :
    let s := { State.reset.completeOk with ie := true }
    s.irq = true ∧ (s.writeStatus 4#32).irq = false ∧ (s.writeCtrl 0#32).irq = false ∧ (s.writeCtrl 0#32).done = true := by
  decide

/-- V-T11: a write to ID is taken and ignored. -/
theorem test_write_id_ignored : step (idle [.access (.writeAt 0#14 0x12345678#32)]) =
    .next { State.reset with busLog := [⟨.writeAt 0#14 0x12345678#32, .done⟩] } := rfl

/-- V-T12, V-T13. -/
theorem test_bus_errors :
    (after State.reset (step (idle [.access (.readAt 0x18#14)]))).busLog = [⟨.readAt 0x18#14, .error⟩] ∧
    (after State.reset (step (idle [.access (.writeAt 2#14 0#32)]))).busLog = [⟨.writeAt 2#14 0#32, .error⟩] := by
  decide

/-- Program 1: `WF F1, a` writes the words of `a` at `0x0220` to `0x023C`, most significant first. -/
theorem test_write_field :
    (Access.writeField 1 (BitVec.ofNat 256 aVal)).take 2 =
      [.writeAt 0x0220#14 0x12345678#32, .writeAt 0x0224#14 0x90ABCDEF#32] ∧
    ((State.reset.writeWord 0x0220#14 0x12345678#32).reg 1).toNat = 0x12345678 * 2 ^ 224 ∧
    (State.reset.writeWord 0x023C#14 0x90ABCDEF#32).readWord 0x023C#14 = 0x90ABCDEF#32 := by decide +kernel

/-- Program 2: `W 0x0400, 0x424C535F` puts "BLS_" into `DST[0:4]`. -/
theorem test_write_dst :
    let s := State.reset.writeWord 0x0400#14 0x424C535F#32
    [s.dst 0, s.dst 1, s.dst 2, s.dst 3] = [0x42#8, 0x4C#8, 0x53#8, 0x5F#8] ∧ s.mem.wf := by decide

/-- R50: an address outside the window is not decoded. -/
theorem test_window_offset :
    windowOffset 0x40000000 0x40003FFC = some 0x3FFC#14 ∧ windowOffset 0x40000000 0x40004000 = none ∧
    windowOffset 0x40000000 0x3FFFFFFC = none := by decide

/-- R61: an OUT read while BUSY gets no response; the completion comes, and then the response. -/
theorem test_held_read :
    let s := inFlight 0x06210000#32 [.access (.readAt 0x2000#14)]
    (after s (step s)).held = some (.readAt 0x2000#14) ∧
    (match core.run 3 s with | .next t => t.busLog | _ => []) = [⟨.readAt 0x2000#14, .data 0#32⟩] := by decide +kernel

/-- R242: a reset while BUSY abandons the command: DONE stays 0. -/
theorem test_reset_abandons :
    (after State.reset (step (inFlight 0x06210000#32 [.reset ⟨Vector.replicate 16 7#256, [], 0⟩]))).statusWord = 0#32 := by
  decide +kernel

/-- U7: the entropy source never answers a FRAND in flight: STATUS still reads BUSY, and then the block is stuck. -/
theorem test_silent_entropy :
    let s := inFlight 0x07400000#32 [.silent .entropy, .access (.readAt 0x8#14)]
    (match core.run 2 s with | .next t => t.busLog | _ => []) = [⟨.readAt 0x8#14, .data 1#32⟩] ∧
    faultOf (core.run 3 s) = some .entropyPortSilent := by
  decide +kernel

/-- Every row's first word runs as the first instruction after reset. -/
theorem test_rows_run_after_reset :
    ([0x01000000, 0x02000000, 0x03000000, 0x04000000, 0x05000000, 0x06000000, 0x07000000, 0x10000000, 0x11000000,
      0x12000000].all fun w => match step (State.reset.withFetchWord 32 w) with | .next t => t.done | _ => false) = true := by
  decide +kernel

/-! ### Witnesses: a state and operands that meet the hypotheses of each statement, clause by clause -/

theorem witness_decode_of_encode : (Instr.b2f 15 48 16383).wellFormed = true ∧ (Instr.xmd 65535).wellFormed = true := by
  decide

theorem witness_encode_of_decode : decode 0x12FC3FFF#32 = .ok (.b2f 15 48 16383) := by decide

theorem witness_illegal_word :
    ∀ w ∈ [0x00000000#32, 0x01312001#32, 0x04000001#32, 0x07080000#32, 0x10010060#32, 0x125C4000#32],
      IllegalWord w ∧ (inFlight w []).turn = .run w ∧ (inFlight w [.complete]).turn = .run w := by
  simp only [List.forall_mem_cons, List.not_mem_nil, false_implies, implies_true, and_true]
  and_intros <;> decide

theorem witness_step_runs :
    (inFlight 0x06210000#32 []).inflight = some 0x06210000#32 ∧ (inFlight 0x06210000#32 []).hung = none ∧ decode 0x06210000#32 = .ok (.fred 2 1) ∧
    (inFlight 0x06210000#32 []).agenda = [] ∧
    (inFlight 0x06210000#32 [.complete]).agenda = .complete :: [] ∧
    ({ inFlight 0x06210000#32 [.access (.readAt 8#14)] with held := some (.readAt 0xC#14) }).held =
      some (.readAt 0xC#14) := by decide

theorem witness_cmd_write :
    (idle [.access (.writeAt 0xC#14 0x06210000#32)]).inflight = none ∧
    (idle [.access (.writeAt 0xC#14 0x06210000#32)]).held = none ∧
    (idle [.access (.writeAt 0xC#14 0x06210000#32)]).agenda = .access (.writeAt 0xC#14 0x06210000#32) :: [] ∧
    decode 0x06210000#32 = .ok (.fred 2 1) ∧ decode 0x00000000#32 = .error (.undefinedOpcode 0x00#8) := by decide

theorem witness_inflight_completes :
    (inFlight 0x00000000#32 []).inflight = some 0x00000000#32 ∧ (inFlight 0x00000000#32 []).agenda = [] := by decide

theorem witness_first_error :
    firstError (.finv 2 1) State.reset = .divisionByZero ∧ firstError (.fred 2 1) State.reset = .none ∧
    firstError (.xmd 8161) State.reset = .outputLength ∧ firstError (.xmd 8160) State.reset = .none ∧
    firstError (.b2f 1 48 8145) State.reset = .bounds ∧ firstError (.b2f 1 48 8144) State.reset = .none ∧
    firstError (.h2f 1 2) { State.reset with dstLen := 256#16 } = .invalidDomainLength ∧
    firstError (.h2f 1 2) { State.reset with dstLen := 255#16, msgLen := 4097#16 } = .bounds ∧
    firstError (.fsqrt 1 2) (regsState [(2, Config.p)]) = .nonCanonical := by decide +kernel

/-- Operands of the multiplier: the largest canonical value, and the smallest value that is not canonical. -/
theorem witness_multiplier :
    (Canonical ((regsState [(1, Config.p - 1)]).reg 1) ∧ Canonical ((regsState [(1, Config.p - 1)]).reg 2)) ∧
    ¬ Canonical ((regsState [(1, Config.p)]).reg 1) ∧
    ((0x01000FFF#32).toNat / 2 ^ 24 = 0x01 ∧ (0x01000FFF#32).toNat % 2 ^ 12 ≠ 0) ∧
    ((0x02000001#32).toNat / 2 ^ 24 = 0x02 ∧ (0x02000001#32).toNat % 2 ^ 12 ≠ 0) ∧
    ((0x03000800#32).toNat / 2 ^ 24 = 0x03 ∧ (0x03000800#32).toNat % 2 ^ 12 ≠ 0) := by decide +kernel

theorem witness_montgomery_form :
    (Canonical ((regsState [(1, aVal), (2, Config.r2ModP)]).reg 1) ∧
      ((regsState [(1, aVal), (2, Config.r2ModP)]).reg 2).toNat = Config.r2ModP) ∧
    (Canonical ((regsState [(1, aVal), (2, 1)]).reg 1) ∧ ((regsState [(1, aVal), (2, 1)]).reg 2).toNat = 1) := by
  decide +kernel

theorem witness_finv :
    (Canonical ((regsState [(1, 1)]).reg 1) ∧ ((regsState [(1, 1)]).reg 1).toNat ≠ 0) ∧
    ¬ Canonical ((regsState [(1, Config.p)]).reg 1) ∧ (State.reset.reg 1).toNat = 0 ∧
    ((0x04008000#32).toNat / 2 ^ 24 = 0x04 ∧ (0x04008000#32).toNat % 2 ^ 16 ≠ 0) := by decide +kernel

theorem witness_fsqrt_fred_frand_words :
    Canonical ((regsState [(1, Config.p - 1)]).reg 1) ∧
    ((0x05000001#32).toNat / 2 ^ 24 = 0x05 ∧ (0x05000001#32).toNat % 2 ^ 16 ≠ 0) ∧
    ((0x06000001#32).toNat / 2 ^ 24 = 0x06 ∧ (0x06000001#32).toNat % 2 ^ 16 ≠ 0) ∧
    ((0x07080000#32).toNat / 2 ^ 24 = 0x07 ∧ (0x07080000#32).toNat % 2 ^ 20 ≠ 0) := by decide +kernel

/-- A hash with 32-byte digests, for the statements about every such hash. -/
theorem witness_digests32 : Digests32 fun _ => List.replicate 32 0#8 := fun _ => by simp

theorem witness_expansion_bounds :
    (({ State.reset with dstLen := 255#16, msgLen := 4096#16 }).dstLen.toNat ≤ 255 ∧
      ({ State.reset with dstLen := 255#16, msgLen := 4096#16 }).msgLen.toNat ≤ 4096 ∧ (8160#16).toNat ≤ 8160) ∧
    255 < ({ State.reset with dstLen := 256#16 }).dstLen.toNat ∧
    4096 < ({ State.reset with msgLen := 4097#16 }).msgLen.toNat ∧ 8160 < (8161#16).toNat ∧
    ((0x10010060#32).toNat / 2 ^ 24 = 0x10 ∧ (0x10010060#32).toNat / 2 ^ 16 % 2 ^ 8 ≠ 0) ∧
    ((0x11010001#32).toNat / 2 ^ 24 = 0x11 ∧ (0x11010001#32).toNat % 2 ^ 16 ≠ 0) := by decide

theorem witness_b2f :
    ((48#6).toNat ≤ 48 ∧ (8144#14).toNat + (48#6).toNat ≤ 8192) ∧
    ((48#6).toNat ≤ 48 ∧ 8192 < (8145#14).toNat + (48#6).toNat) ∧
    ((0x125C4000#32).toNat / 2 ^ 24 = 0x12 ∧ 48 < (0x125C4000#32).toNat / 2 ^ 14 % 2 ^ 6) := by decide

theorem witness_padding : (List.replicate 135 0#8).length % 136 = 135 ∧ ([] : List Byte).length % 136 ≠ 135 := by
  decide +kernel

/-- Commands answer next states: the premise of the statements about what a command may write. -/
theorem witness_exec_next : (∃ t, exec (.fred 2 1) State.reset = .next t) ∧
    (∃ t, exec (.fsqrt 2 1) State.reset = .next t ∧ t.found ≠ State.reset.found ∧ t.lastErr = .none) ∧
    (∃ t, exec (.finv 2 1) State.reset = .next t ∧ t.lastErr ≠ .none) :=
  ⟨⟨_, rfl⟩, ⟨_, rfl, by decide +kernel⟩, ⟨_, rfl, by decide⟩⟩

theorem witness_reads_only :
    let s := { scenario with dstLen := 3#16 }
    let s' := { s with mem := s.mem.write 0x0403 0xEE#8 }
    s'.dstLen = s.dstLen ∧ s'.msgLen = s.msgLen ∧ (∀ j, j < 3 → s'.dst j = s.dst j) ∧ (∀ j, j < 10 → s'.msg j = s.msg j) ∧
    s'.mem ≠ s.mem ∧ (∀ j, j < 48 → s'.out j = s.out j) := by decide +kernel

/-- A host write puts a non-canonical value into F1. -/
theorem witness_non_canonical_write :
    let s := idle [.access (.writeAt 0x0220#14 0xFFFFFFFF#32)]
    ∃ t, step s = .next t ∧ t.reg 1 ≠ s.reg 1 ∧ ¬ Canonical (t.reg 1) := ⟨_, rfl, by decide +kernel⟩

/-- Each ground of a bus error, at the edges of its range. -/
theorem witness_bus_error :
    (Access.mk .read 0x3FFF#14 0xF#4 1).off.toNat % 4 ≠ 0 ∧ (Access.mk .read 0#14 0x7#4 1).enables ≠ 0xF#4 ∧
    (Access.mk .read 0#14 0xF#4 2).beats ≠ 1 ∧ (0x0018 ≤ (0x0018#14).toNat ∧ (0x01FC#14).toNat ≤ 0x01FF) ∧
    (0x0500 ≤ (0x0500#14).toNat ∧ (0x0FFC#14).toNat ≤ 0x0FFF) ∧
    (idle [.access (.readAt 0x0018#14)]).held = none ∧
    (idle [.access (.readAt 0x0018#14)]).agenda = .access (.readAt 0x0018#14) :: [] := by decide

theorem witness_mapped_access :
    (idle [.access (.readAt 0x3FFC#14)]).held = none ∧ (idle [.access (.readAt 0x3FFC#14)]).inflight = none ∧
    (0x3FFC#14).toNat % 4 = 0 ∧ 0x1000 ≤ (0x3FFC#14).toNat ∧ (0x0014#14).toNat < 0x0018 ∧
    (0x0200 ≤ (0x0200#14).toNat ∧ (0x04FC#14).toNat < 0x0500) ∧
    (idle [.access (.readAt 0x3FFC#14)]).agenda = .access (.readAt 0x3FFC#14) :: [] ∧
    (idle [.access (.writeAt 0x3FFC#14 1#32)]).agenda = .access (.writeAt 0x3FFC#14 1#32) :: [] := by decide

theorem witness_buffer_word : (0x04FC#14).toNat % 4 = 0 ∧ (0x0400 ≤ (0x04FC#14).toNat ∧ (0x04FC#14).toNat < 0x0500) ∧
    (0x3FFC#14).toNat % 4 = 0 ∧ 0x1000 ≤ (0x3FFC#14).toNat := by decide

theorem witness_held_access :
    let s := inFlight 0x06210000#32 [.access (.readAt 0xC#14)]
    s.inflight = some 0x06210000#32 ∧ decode 0x06210000#32 = .ok (.fred 2 1) ∧ s.held = none ∧
    s.agenda = [.access (.readAt 0xC#14)] ∧ (Access.readAt 0xC#14).interlocked = true ∧
    ∃ t, exec (.fred 2 1) { s with agenda := [], held := some (.readAt 0xC#14) } = .next t :=
  ⟨rfl, by decide, rfl, rfl, by decide, _, rfl⟩

theorem witness_never_held :
    (inFlight 0x06210000#32 [.access (.readAt 0x8#14)]).held = none ∧
    (inFlight 0x06210000#32 [.access (.readAt 0x8#14)]).agenda = .access (.readAt 0x8#14) :: [] ∧
    (Access.readAt 0x8#14).off.toNat < 0x000C ∧
    ((inFlight 0x06210000#32 [.access (.readAt 0xC#14)]).inflight.isSome = true ∧ 0x000C ≤ (0xC#14).toNat ∧
      (Access.readAt 0xC#14).valid = true ∧ (Access.readAt 0x3FFC#14).valid = true) := by decide

theorem witness_busy_freezes :
    let s := inFlight 0x06210000#32 [.access (.writeAt 0x4#14 1#32)]
    ∃ t, step s = .next t ∧ t.inflight = some 0x06210000#32 ∧ t.ie = true := ⟨_, rfl, rfl, by decide⟩

theorem witness_clear_before_completion :
    let s := { inFlight 0x06210000#32 [.access (.writeAt 0x8#14 4#32), .complete] with done := true }
    s.inflight = some 0x06210000#32 ∧ s.held = none ∧
    s.agenda = .access (.writeAt 0x0008#14 4#32) :: .complete :: [] := by decide

theorem witness_irq : (4#32).getLsbD 2 = true ∧ (0#32).getLsbD 0 = false := by decide

theorem witness_idle_and_start :
    (State.reset.inflight = none ∧ State.reset.held = none ∧ State.reset.agenda = []) ∧
    (∃ t, step (idle [.access (.writeAt 0xC#14 5#32)]) = .next t ∧ t.inflight = some 5#32) :=
  ⟨⟨rfl, rfl, rfl⟩, _, rfl, rfl⟩

theorem witness_reset_pulse :
    (inFlight 5#32 [.reset ⟨Vector.replicate 16 7#256, [(0x0400, 1#8)], 2⟩]).agenda =
      .reset ⟨Vector.replicate 16 7#256, [(0x0400, 1#8)], 2⟩ :: [] := rfl

/-- States that meet the invariant, with a command in flight, an access held, and an answer that never comes. -/
theorem witness_invariant : Inv State.reset ∧
    Inv { inFlight 5#32 [] with
      held := some (.readAt 0xC#14), hung := some .hash, mem := [(0x0400, 1#8), (0x3FFF, 2#8)] } :=
  ⟨⟨by decide, by simp [State.reset], by simp [State.reset], by simp [State.reset]⟩,
    ⟨by decide, by simp [inFlight], by simp only [Option.some.injEq]; rintro a rfl; decide, by simp [inFlight]⟩⟩

/-- A command that waits on each port, and commands that do not: their checks fail, their rule makes no transaction there,
or the word is illegal. -/
theorem witness_silent :
    (∃ i, decode 0x07300000#32 = .ok i ∧ firstError i State.reset = .none ∧ portOf i = some .entropy) ∧
    (∃ i, decode 0x10001FE0#32 = .ok i ∧ firstError i State.reset = .none ∧ portOf i = some .hash) ∧
    (∃ i, decode 0x11010000#32 = .ok i ∧ firstError i State.reset = .none ∧ portOf i = some .hash) ∧
    firstError (.xmd 8161) State.reset ≠ .none ∧ portOf (.h2f 0 1) ≠ some .entropy ∧ portOf (.fmul 1 2 3) = none ∧
    decode 0x00000000#32 = .error (.undefinedOpcode 0x00#8) ∧
    (inFlight 0x07300000#32 [.silent .entropy]).hung = none ∧
    (inFlight 0x07300000#32 [.silent .entropy]).agenda = .silent .entropy :: [] :=
  ⟨⟨.frand 3, by decide⟩, ⟨.xmd 8160, by decide⟩, ⟨.h2f 0 1, by decide⟩, by decide, by decide, rfl, by decide, rfl, rfl⟩

/-- A command that hangs, and the reset that ends it. -/
theorem witness_hung :
    let s := { inFlight 0x07300000#32 [.reset ⟨Vector.replicate 16 7#256, [], 1⟩] with hung := some Port.entropy }
    s.inflight = some 0x07300000#32 ∧ s.hung = some .entropy ∧ ∃ t, step s = .next t ∧ t.inflight = none :=
  ⟨rfl, rfl, _, rfl, rfl⟩

/-- The turns that touch the record of the host bus. -/
theorem witness_responses :
    (idle [.access (.readAt 0#14)]).turn = .perform (.readAt 0#14) ∧
    ({ State.reset with held := some (.readAt 0xC#14) }).turn = .release (.readAt 0xC#14) ∧
    (inFlight 0x06210000#32 [.access (.readAt 0xC#14)]).turn = .hold (.readAt 0xC#14) ∧
    State.reset.turn = .idle ∧ step State.reset = .next State.reset := ⟨rfl, rfl, rfl, rfl, rfl⟩

/-- A state that ends a run, with a reset still to come. -/
theorem witness_run_ended : RunEnded (idle [.complete, .reset ⟨Vector.replicate 16 7#256, [], 0⟩]) ∧
    ∃ t, step (idle [.complete, .reset ⟨Vector.replicate 16 7#256, [], 0⟩]) = .next t := ⟨⟨rfl, rfl, rfl⟩, _, rfl⟩

/-- The run of a program of one access ends before the reset that follows it, and nowhere earlier (R252). -/
theorem witness_run_ends_at :
    let s := idle [.access (.writeAt 0x4#14 1#32), .reset ⟨Vector.replicate 16 7#256, [], 0⟩]
    (s.hung = none ∧ ∀ port, Event.silent port ∉ s.agenda) ∧
    ∃ t, RunEndsAt s 1 t ∧ (observe t).ctrl = 1#32 ∧ (observe t).fregs = State.reset.fregs := by
  refine ⟨⟨rfl, by simp [idle]⟩, _, ⟨rfl, ⟨rfl, rfl, rfl⟩, fun m u hm hu => ?_⟩, by decide, rfl⟩
  obtain rfl : m = 0 := by omega
  obtain rfl := Host.Outcome.next.inj hu
  exact fun h => absurd h.accesses (by decide)

end Sys2Proof.Tests
end

section
/-! SUPPORT. What a completed command is, said once for all ten: the state its rule computes, completed, or the state at
acceptance, error-completed (spec/60_exceptions.md R214, R215); and what that state holds (spec/10_state.md R22, R23,
R30). Then the illegal words, and what an access does to the field registers, to FOUND and to the control registers. -/

namespace Sys2Proof.Machine

open Sys2Proof.Safety

/-! ### Powers are canonical -/

theorem powLoop_lt (e : FieldWord) : ∀ (passes i base acc : Nat), acc < Config.p →
    powLoop e passes i base acc < Config.p := by
  intro passes
  induction passes with
  | zero => exact fun _ _ _ h => h
  | succ passes ih =>
    intro i base acc h
    refine ih _ _ _ ?_
    split
    · exact mod_p_lt _
    · exact h

theorem modPow_lt (b : Nat) (e : FieldWord) : modPow b e < Config.p := powLoop_lt e _ _ _ _ (by decide)

theorem reduceBytes_lt (l : List Byte) : reduceBytes l < Config.p := mod_p_lt _

/-! ### The state a command's rule computes -/

/-- The state the rule of a command computes from `s` when none of its checks fails, before it is completed (R104 to R110,
R147, R170, R171). -/
def computed (i : Instr) (s : State) : State :=
  match i with
  | .fmul rd ra rb => s.setField rd ((s.reg ra).toNat * (s.reg rb).toNat % Config.p)
  | .montmul rd ra rb => s.setField rd ((s.reg ra).toNat * (s.reg rb).toNat * Config.rInv % Config.p)
  | .modpow rd ra rb => s.setField rd (modPow (s.reg ra).toNat (s.reg rb))
  | .finv rd ra => s.setField rd (modPow (s.reg ra).toNat (BitVec.ofNat 256 Config.expInv))
  | .fsqrt rd ra =>
    let c := modPow (s.reg ra).toNat (BitVec.ofNat 256 Config.expSqrt)
    (s.setField rd c).setFound (c * c % Config.p == (s.reg ra).toNat)
  | .fred rd ra => s.setField rd ((s.reg ra).toNat % Config.p)
  | .frand rd => s.logEntropy.setField rd (os2ip (Config.entropy32 s.draws).toList % Config.p)
  | .xmd n => (s.logHash (s.expand n.toNat).calls).writeOut (s.expand n.toNat).out
  | .h2f rd rd2 =>
    let x := s.expand 96
    (((s.logHash x.calls).writeOut x.out).setField rd (reduceBytes (x.out.take 48))).setField rd2
      (reduceBytes ((x.out.drop 48).take 48))
  | .b2f rd len off => s.setField rd (reduceBytes (s.chunk off.toNat len.toNat))

/-- The checks before an expansion pass, or one of them names an error. -/
theorem State.checkExpansion_cases (s : State) (n : Nat) :
    s.checkExpansion n = .ok () ∨ ∃ e, e ≠ .none ∧ s.checkExpansion n = .error e := by
  rw [State.checkExpansion_eq]
  split
  · exact .inr ⟨.invalidDomainLength, nofun, rfl⟩
  · split
    · exact .inr ⟨.bounds, nofun, rfl⟩
    · split
      · exact .inr ⟨.outputLength, nofun, rfl⟩
      · exact .inl rfl

/-- Every command completes: with the state its rule computes, or with an error and the state it was accepted in. -/
theorem exec_ok_or_error (i : Instr) (s : State) :
    exec i s = .next (computed i s).completeOk ∨ ∃ e, e ≠ .none ∧ exec i s = .next (s.completeError e) := by
  cases i with
  | fmul rd ra rb =>
    by_cases h : (s.reg ra).toNat < Config.p ∧ (s.reg rb).toNat < Config.p
    · exact .inl (execFmul_ok rd h.1 h.2)
    · exact .inr ⟨.nonCanonical, nofun, execFmul_error rd (not_and_or.mp h)⟩
  | montmul rd ra rb =>
    by_cases h : (s.reg ra).toNat < Config.p ∧ (s.reg rb).toNat < Config.p
    · exact .inl (execMontmul_ok rd h.1 h.2)
    · exact .inr ⟨.nonCanonical, nofun, execMontmul_error rd (not_and_or.mp h)⟩
  | modpow rd ra rb => exact .inl (execModpow_ok rd ra rb s)
  | finv rd ra =>
    by_cases h : (s.reg ra).toNat < Config.p
    · by_cases h0 : (s.reg ra).toNat = 0
      · exact .inr ⟨.divisionByZero, nofun, execFinv_zero rd h0⟩
      · exact .inl (execFinv_ok rd h h0)
    · exact .inr ⟨.nonCanonical, nofun, execFinv_error rd h⟩
  | fsqrt rd ra =>
    by_cases h : (s.reg ra).toNat < Config.p
    · exact .inl (execFsqrt_ok rd h)
    · exact .inr ⟨.nonCanonical, nofun, execFsqrt_error rd h⟩
  | fred rd ra => exact .inl (execFred_ok rd ra s)
  | frand rd => exact .inl (frandWith_ok _ rd s)
  | xmd n =>
    rcases s.checkExpansion_cases n.toNat with h | ⟨e, he, h⟩
    · exact .inl (execXmd_ok h)
    · exact .inr ⟨e, he, execXmd_error h⟩
  | h2f rd rd2 =>
    rcases s.checkExpansion_cases 96 with h | ⟨e, he, h⟩
    · exact .inl (execH2f_ok rd rd2 h)
    · exact .inr ⟨e, he, execH2f_error rd rd2 h⟩
  | b2f rd len off =>
    rcases Nat.lt_or_ge 48 len.toNat with hl | hl
    · exact .inr ⟨.illegal, nofun, execB2f_illegal rd off hl⟩
    · rcases Nat.lt_or_ge 8192 (off.toNat + len.toNat) with ho | ho
      · exact .inr ⟨.bounds, nofun, execB2f_bounds rd hl ho⟩
      · exact .inl (execB2f_ok rd hl ho)

/-- The two ways a next state comes out of a command. -/
theorem exec_next_cases {i : Instr} {s t : State} (h : exec i s = .next t) :
    t = (computed i s).completeOk ∨ ∃ e, e ≠ .none ∧ t = s.completeError e := by
  rcases exec_ok_or_error i s with hx | ⟨e, he, hx⟩
  · exact .inl (Host.Outcome.next.inj (h.symm.trans hx))
  · exact .inr ⟨e, he, Host.Outcome.next.inj (h.symm.trans hx)⟩

/-- A command whose LASTERR ends at 0 has done what its rule computes. -/
theorem exec_next_of_lastErr {i : Instr} {s t : State} (h : exec i s = .next t) (ht : t.lastErr = .none) :
    t = (computed i s).completeOk := by
  rcases exec_next_cases h with rfl | ⟨e, he, rfl⟩
  · rfl
  · exact absurd ht he

/-! ### What the computed state holds -/

theorem State.canonical_setField (s : State) {r k : Reg} {v : Nat} (hv : v < Config.p)
    (hk : k ≠ r → Canonical (s.reg k)) : Canonical ((s.setField r v).reg k) := by
  by_cases h : k = r
  · subst h
    rw [Canonical, State.setField_reg_self, toNat_ofNat_of_lt hv]
    exact hv
  · rw [State.setField_reg_of_ne _ _ h]
    exact hk h

theorem State.canonical_written (s : State) {r k : Reg} {v : Nat} (hv : v < Config.p) (hk : k ∈ [r]) :
    Canonical ((s.setField r v).reg k) :=
  s.canonical_setField hv fun hn => absurd (List.mem_singleton.mp hk) hn

/-- Every destination of a command is canonical in the state its rule computes (R23). -/
theorem computed_canonical {i : Instr} {k : Reg} (h : k ∈ destinations i) (s : State) :
    Canonical ((computed i s).reg k) := by
  cases i with
  | fmul rd ra rb => exact State.canonical_written _ (mod_p_lt _) h
  | montmul rd ra rb => exact State.canonical_written _ (mod_p_lt _) h
  | modpow rd ra rb => exact State.canonical_written _ (modPow_lt _ _) h
  | finv rd ra => exact State.canonical_written _ (modPow_lt _ _) h
  | fsqrt rd ra =>
    rw [computed, State.setFound_reg]
    exact State.canonical_written _ (modPow_lt _ _) h
  | fred rd ra => exact State.canonical_written _ (mod_p_lt _) h
  | frand rd => exact State.canonical_written _ (mod_p_lt _) h
  | xmd n => exact absurd h List.not_mem_nil
  | h2f rd rd2 =>
    refine State.canonical_setField _ (reduceBytes_lt _) fun hn => State.canonical_written _ (reduceBytes_lt _) ?_
    simpa [destinations, hn] using h
  | b2f rd len off => exact State.canonical_written _ (reduceBytes_lt _) h

/-- A command's rule writes no field register but its destinations (R22). -/
theorem computed_reg_of_not_mem {i : Instr} {k : Reg} (h : k ∉ destinations i) (s : State) :
    (computed i s).reg k = s.reg k := by
  cases i with
  | xmd n => rfl
  | h2f rd rd2 =>
    obtain ⟨h1, h2⟩ : k ≠ rd ∧ k ≠ rd2 := by simpa [destinations] using h
    rw [computed, State.setField_reg_of_ne _ _ h2, State.setField_reg_of_ne _ _ h1]
    rfl
  | fsqrt rd ra =>
    rw [computed, State.setFound_reg]
    exact State.setField_reg_of_ne _ _ (List.mem_singleton.not.mp h)
  | _ => exact State.setField_reg_of_ne _ _ (List.mem_singleton.not.mp h)

/-- No rule but FSQRT's writes FOUND (R30). -/
theorem computed_found {i : Instr} (h : ∀ rd ra, i ≠ .fsqrt rd ra) (s : State) : (computed i s).found = s.found := by
  cases i with
  | fsqrt rd ra => exact absurd rfl (h rd ra)
  | _ => rfl

/-- A command leaves each field register as it was, or canonical. -/
theorem exec_reg {i : Instr} {s t : State} (h : exec i s = .next t) (k : Reg) :
    t.reg k = s.reg k ∨ Canonical (t.reg k) := by
  rcases exec_next_cases h with rfl | ⟨e, -, rfl⟩
  · by_cases hk : k ∈ destinations i
    · exact .inr (computed_canonical hk s)
    · exact .inl (computed_reg_of_not_mem hk s)
  · exact .inl rfl

/-! ### Illegal words (R87) -/

/-- A row's must-be-zero bits are refused exactly when their number is not zero. -/
theorem ifZero_error_iff (w : Word) (lo size : Nat) (i : Instr) :
    (∃ e, ifZero w lo size i = .error e) ↔ w.toNat / 2 ^ lo % 2 ^ size ≠ 0 := by
  rw [ne_eq, ← extract_eq_zero_iff, ifZero]
  split <;> simp_all

/-- The illegal words of R87 are those the decoder refuses. -/
theorem decode_error_iff (w : Word) : (∃ e, decode w = .error e) ↔ IllegalWord w := by
  unfold decode
  split
  case h_10 ho =>
    simp only [toNat_opcodeOf, Nat.reducePow] at ho
    split <;> simp_all [IllegalWord, toNat_lenOf]
  case h_11 => simp_all [IllegalWord, toNat_opcodeOf]
  all_goals
    rename_i ho
    simp only [toNat_opcodeOf, Nat.reducePow] at ho
    simp [ifZero_error_iff, IllegalWord, ho]

/-! ### The field registers and FOUND, over a command word and over an access -/

/-- Running a command word leaves each field register as it was, or canonical. -/
theorem runCommand_reg {w : Word} {s t : State} (h : runCommand w s = .next t) (k : Reg) :
    t.reg k = s.reg k ∨ Canonical (t.reg k) := by
  have hd : s.dropCompletion.reg k = s.reg k := State.reg_congr s.dropCompletion_fregs k
  cases hw : decode w with
  | ok i =>
    rw [runCommand_ok hw] at h
    exact hd ▸ exec_reg h k
  | error e =>
    rw [runCommand_error hw] at h
    obtain rfl := Host.Outcome.next.inj h
    exact .inl hd

/-- An access that changes a field register is a write. -/
theorem State.write_of_perform_reg_ne {s : State} {a : Access} {k : Reg} (h : (s.perform a).reg k ≠ s.reg k) :
    ∃ v, a.op = .write v := by
  cases ho : a.op with
  | write v => exact ⟨v, rfl⟩
  | read =>
    refine absurd (State.reg_congr ?_ k) h
    cases hv : a.valid
    · rw [State.perform_invalid hv, State.respond_fregs]
    · rw [State.perform_read hv ho, State.respond_fregs]

/-- Performing an access leaves FOUND as it is. -/
@[simp] theorem State.perform_found (s : State) (a : Access) : (s.perform a).found = s.found := by
  unfold State.perform
  split
  · split
    · rfl
    · exact (s.writeWord_status _ _).1
  · rfl

/-! ### The control registers over the bus -/

@[simp] theorem State.readWord_id (s : State) : s.readWord 0x0000#14 = Config.idWord := by simp [State.readWord]

@[simp] theorem State.readWord_ctrl (s : State) : s.readWord 0x0004#14 = s.ctrlWord := by simp [State.readWord]

@[simp] theorem State.readWord_status (s : State) : s.readWord 0x0008#14 = s.statusWord := by simp [State.readWord]

@[simp] theorem State.readWord_cmd (s : State) : s.readWord 0x000C#14 = s.cmd := by simp [State.readWord]

@[simp] theorem State.readWord_dstLen (s : State) : s.readWord 0x0010#14 = s.dstLen.setWidth 32 := by
  simp [State.readWord]

@[simp] theorem State.readWord_msgLen (s : State) : s.readWord 0x0014#14 = s.msgLen.setWidth 32 := by
  simp [State.readWord]

@[simp] theorem State.writeWord_id (s : State) (v : Word) : s.writeWord 0x0000#14 v = s := by simp [State.writeWord]

@[simp] theorem State.writeWord_ctrl (s : State) (v : Word) : s.writeWord 0x0004#14 v = s.writeCtrl v := by
  simp [State.writeWord]

@[simp] theorem State.writeWord_status_eq (s : State) (v : Word) : s.writeWord 0x0008#14 v = s.writeStatus v := by
  simp [State.writeWord]

@[simp] theorem State.writeWord_dstLen (s : State) (v : Word) :
    s.writeWord 0x0010#14 v = { s with dstLen := v.setWidth 16 } := by
  simp [State.writeWord]

@[simp] theorem State.writeWord_msgLen (s : State) (v : Word) :
    s.writeWord 0x0014#14 v = { s with msgLen := v.setWidth 16 } := by
  simp [State.writeWord]

/-- CTRL as a number: IE, and nothing above bit 0 (R25, R27). -/
theorem State.toNat_ctrlWord (s : State) : s.ctrlWord.toNat = s.ie.toNat := by
  have h : s.ctrlWord.toNat = (0#31 ++ BitVec.ofBool s.ie).toNat := rfl
  rw [h, toNat_append_eq, BitVec.toNat_ofBool, BitVec.toNat_ofNat]
  omega

/-- STATUS as a number: its five fields, and nothing above bit 7 (R25, R28). -/
theorem State.toNat_statusWord (s : State) : s.statusWord.toNat =
    s.busy.toNat + 2 * s.found.toNat + 4 * s.done.toNat + 8 * s.errSeen.toNat + 16 * s.lastErr.code.toNat := by
  have h : s.statusWord.toNat = (0#24 ++ s.lastErr.code ++ BitVec.ofBool s.errSeen ++ BitVec.ofBool s.done ++
    BitVec.ofBool s.found ++ BitVec.ofBool s.busy).toNat := rfl
  rw [h]
  simp only [toNat_append_eq, BitVec.toNat_ofBool, BitVec.toNat_ofNat]
  omega

/-- Codes 7 to 15 are never produced (R210). -/
theorem ErrCode.code_le (e : ErrCode) : e.code.toNat ≤ 6 := by
  cases e <;> decide

/-- A length register, read as a 32-bit word, keeps its value. -/
theorem toNat_lengthWord (x : BitVec 16) : (x.setWidth 32).toNat = x.toNat :=
  BitVec.toNat_setWidth_of_le (by decide)

end Sys2Proof.Machine
end

section
/-! CERTIFICATES. The statements about the state (spec/10_state.md). -/

namespace Sys2Proof.Proofs

open Sys2Proof.Machine Sys2Proof.Safety

/-- Settles O35: a command writes canonical values to its destinations and nothing to the other registers, and of the
other turns only a reset and a host write reach the register file. -/
theorem onlyHostWritesNonCanonical : Obligations.OnlyHostWritesNonCanonical := by
  unfold Obligations.OnlyHostWritesNonCanonical
  refine ⟨fun i s t k h ht hk => ?_, fun s t k h hne hnc => ?_⟩
  · rw [exec_next_of_lastErr h ht]
    exact computed_canonical hk s
  · rcases step_cases h with ⟨p, ht, -⟩ | ⟨_, -, rfl⟩ | ⟨w, -, hr⟩ | ⟨a, ht, rfl⟩ | ⟨_, -, rfl⟩ | ⟨a, ht, rfl⟩ |
      ⟨-, rfl⟩ | ⟨-, rfl⟩
    case inl => exact .inr ⟨p, ht⟩
    · exact absurd rfl hne
    · exact absurd ((runCommand_reg hr k).resolve_left hne) hnc
    · obtain ⟨v, hv⟩ := State.write_of_perform_reg_ne hne
      exact .inl ⟨a, v, .inr ht, hv⟩
    · exact absurd rfl hne
    · obtain ⟨v, hv⟩ := State.write_of_perform_reg_ne hne
      exact .inl ⟨a, v, .inl ht, hv⟩
    · exact absurd rfl hne
    · exact absurd rfl hne

/-- Settles O36: by what each rule computes; an illegal word is one the decoder refuses, so it runs no rule. -/
theorem onlyFsqrtWritesFound : Obligations.OnlyFsqrtWritesFound := by
  unfold Obligations.OnlyFsqrtWritesFound
  refine ⟨fun i s t h hne => ?_, fun rd ra s t h ht => ?_, State.perform_found, fun s t w hw h => ?_⟩
  · rcases exec_next_cases h with rfl | ⟨e, -, rfl⟩
    · by_contra hn
      exact hne (computed_found (fun rd ra hi => hn ⟨rd, ra, hi, rfl⟩) s)
    · exact absurd rfl hne
  · rw [exec_next_of_lastErr h ht]
    simp only [computed, State.completeOk_found, State.setFound_found, State.completeOk_reg, State.setFound_reg,
      State.setField_reg_self, toNat_ofNat_of_lt (modPow_lt _ _)]
  · obtain ⟨e, he⟩ := (decode_error_iff w).mpr hw
    rw [runCommand_error he] at h
    obtain rfl := Host.Outcome.next.inj h
    exact s.dropCompletion_found

/-- Settles O40, register by register. -/
theorem controlRegistersReadAndWrite : Obligations.ControlRegistersReadAndWrite := by
  unfold Obligations.ControlRegistersReadAndWrite
  intro s v
  refine ⟨s.readWord_id, s.writeWord_id v, ?_, s.writeWord_ctrl v, ?_, s.lastErr.code_le, s.writeWord_status_eq v,
    s.readWord_cmd, ?_, ?_, ?_, ?_⟩
  · rw [State.readWord_ctrl, State.toNat_ctrlWord]
  · rw [State.readWord_status, State.toNat_statusWord, State.busy]
  · rw [State.readWord_dstLen, toNat_lengthWord]
  · rw [State.writeWord_dstLen, BitVec.ofNat_toNat]
  · rw [State.readWord_msgLen, toNat_lengthWord]
  · rw [State.writeWord_msgLen, BitVec.ofNat_toNat]

end Sys2Proof.Proofs
end

section
/-! SUPPORT. What reading and writing a word does to a field register and to a buffer (spec/20_memory.md R52, R53), and the
step that takes the next access of the host while none is held (R58, R61, R62). -/

namespace Sys2Proof.Machine

/-! ### Slices of a field register -/

/-- Word `j` of a field register as a number (R52). -/
theorem toNat_readSlice (r : FieldWord) (j : Fin 8) :
    (readSlice r j).toNat = r.toNat / 2 ^ (224 - 32 * j.val) % 2 ^ 32 := by
  rw [readSlice, BitVec.extractLsb'_toNat, sliceLow, Nat.shiftRight_eq_div_pow]

/-- The bits of a replaced slice are those of the new word; every other bit stays. -/
theorem getLsbD_writeSlice (r : FieldWord) (j : Fin 8) (v : Word) {i : Nat} (hi : i < 256) :
    (writeSlice r j v).getLsbD i =
      if sliceLow j ≤ i ∧ i < sliceLow j + 32 then v.getLsbD (i - sliceLow j) else r.getLsbD i := by
  have hmask : (0xFFFFFFFF#32) = BitVec.allOnes 32 := rfl
  rw [writeSlice, hmask]
  simp only [BitVec.getLsbD_or, BitVec.getLsbD_and, BitVec.getLsbD_not, BitVec.getLsbD_shiftLeft,
    BitVec.getLsbD_setWidth, BitVec.getLsbD_allOnes, hi, show i - sliceLow j < 256 by omega, decide_true,
    Bool.true_and]
  by_cases hlo : i < sliceLow j
  · simp [hlo, Nat.not_le.mpr hlo]
  · by_cases hhi : i < sliceLow j + 32
    · simp [hlo, hhi, Nat.not_lt.mp hlo, show i - sliceLow j < 32 by omega]
    · simp [hlo, hhi, show ¬ i - sliceLow j < 32 by omega,
        BitVec.getLsbD_of_ge v (i - sliceLow j) (by omega)]

/-- Different words of a field register are disjoint ranges of its bits. -/
theorem sliceLow_disjoint {j j' : Fin 8} (h : j' ≠ j) :
    sliceLow j' + 32 ≤ sliceLow j ∨ sliceLow j + 32 ≤ sliceLow j' := by
  have hne : j'.val ≠ j.val := Fin.val_ne_of_ne h
  have hj := j.isLt
  have hj' := j'.isLt
  simp only [sliceLow]
  omega

/-- Reading a word of a field register after one was replaced (R52). -/
theorem readSlice_writeSlice (r : FieldWord) (j j' : Fin 8) (v : Word) :
    readSlice (writeSlice r j v) j' = if j' = j then v else readSlice r j' := by
  apply BitVec.eq_of_getLsbD_eq
  intro i hi
  have hlow : sliceLow j' + i < 256 := by simp only [sliceLow]; omega
  simp only [readSlice, BitVec.getLsbD_extractLsb', hi, decide_true, Bool.true_and, getLsbD_writeSlice _ _ _ hlow]
  by_cases hj : j' = j
  · subst hj
    rw [if_pos (by omega), if_pos rfl, Nat.add_sub_cancel_left]
  · have hdis := sliceLow_disjoint hj
    rw [if_neg (by omega), if_neg hj]
    simp [hi]

/-! ### The words of the field registers over the bus -/

@[simp] theorem State.readWord_field (s : State) (k : Reg) (j : Fin 8) :
    s.readWord (BitVec.ofNat 14 (0x0200 + 32 * k.val + 4 * j.val)) = readSlice (s.reg k) j := by
  simp [State.readWord, regionOf_field]

@[simp] theorem State.writeWord_field (s : State) (k : Reg) (j : Fin 8) (v : Word) :
    s.writeWord (BitVec.ofNat 14 (0x0200 + 32 * k.val + 4 * j.val)) v = s.setReg k (writeSlice (s.reg k) j v) := by
  simp [State.writeWord, regionOf_field]

/-! ### The words of the buffers over the bus -/

/-- A packed word as a number: its bytes from bits `[31:24]` down (R53). -/
theorem toNat_packWord (b0 b1 b2 b3 : Byte) : (packWord b0 b1 b2 b3).toNat =
    b0.toNat * 2 ^ 24 + b1.toNat * 2 ^ 16 + b2.toNat * 2 ^ 8 + b3.toNat := by
  have h : (packWord b0 b1 b2 b3).toNat = (b0 ++ b1 ++ b2 ++ b3).toNat := rfl
  rw [h]
  simp only [toNat_append_eq]
  omega

/-- Packing the four bytes of a word gives the word back. -/
theorem packWord_extract (v : Word) :
    packWord (v.extractLsb' 24 8) (v.extractLsb' 16 8) (v.extractLsb' 8 8) (v.extractLsb' 0 8) = v := by
  apply BitVec.eq_of_toNat_eq
  have hv := v.isLt
  simp only [toNat_packWord, BitVec.extractLsb'_toNat, Nat.shiftRight_eq_div_pow]
  omega

@[simp] theorem unpackWord_length (v : Word) : (unpackWord v).length = 4 := rfl

theorem State.readWord_buffer (s : State) {off : BitVec 14} (h : regionOf off = .buffer) : s.readWord off =
    packWord (s.byte off.toNat) (s.byte (off.toNat + 1)) (s.byte (off.toNat + 2)) (s.byte (off.toNat + 3)) := by
  simp [State.readWord, h]

theorem State.writeWord_buffer (s : State) {off : BitVec 14} (h : regionOf off = .buffer) (v : Word) :
    s.writeWord off v = { s with mem := s.mem.writeBytes off.toNat (unpackWord v) } := by
  simp [State.writeWord, h]

/-- A byte of a written buffer word is the byte of the value at its place. -/
theorem State.writeWord_byte_inside (s : State) {off : BitVec 14} (h : regionOf off = .buffer) (v : Word) {i : Nat}
    (hi : i < 4) : (s.writeWord off v).byte (off.toNat + i) = (unpackWord v).getD i 0#8 := by
  rw [State.writeWord_buffer s h, State.byte, Memory.read_writeBytes, if_pos (by rw [unpackWord_length]; omega),
    Nat.add_sub_cancel_left]

/-- A byte outside a written buffer word stays. -/
theorem State.writeWord_byte_outside (s : State) {off : BitVec 14} (h : regionOf off = .buffer) (v : Word) {a : Nat}
    (ha : a < off.toNat ∨ off.toNat + 4 ≤ a) : (s.writeWord off v).byte a = s.byte a := by
  rw [State.writeWord_buffer s h]
  exact Memory.read_writeBytes_outside ha

/-- A buffer word reads back as written (R53). -/
theorem State.readWord_writeWord_buffer (s : State) {off : BitVec 14} (h : regionOf off = .buffer) (v : Word) :
    (s.writeWord off v).readWord off = v := by
  have h0 : (s.writeWord off v).byte off.toNat = _ := s.writeWord_byte_inside h v (i := 0) (by decide)
  rw [State.readWord_buffer _ h, h0, s.writeWord_byte_inside h v (i := 1) (by decide),
    s.writeWord_byte_inside h v (i := 2) (by decide), s.writeWord_byte_inside h v (i := 3) (by decide)]
  exact packWord_extract v

/-! ### The next access of the host -/

theorem Access.valid_eq_false_iff (a : Access) : a.valid = false ↔
    a.off.toNat % 4 ≠ 0 ∨ a.enables ≠ 0xF#4 ∨ a.beats ≠ 1 ∨ regionOf a.off = .unmapped := by
  rw [← Bool.not_eq_true, Access.valid_iff]
  tauto

theorem Access.interlocked_of_valid {a : Access} (hv : a.valid = true) (ho : 0x000C ≤ a.off.toNat) :
    a.interlocked = true := by
  obtain ⟨-, -, -, hu⟩ := (Access.valid_iff a).mp hv
  simp [Access.interlocked, hv, regionOf_interlocked ho hu]

theorem Access.not_interlocked_of_lt {a : Access} (h : a.off.toNat < 0x000C) : a.interlocked = false := by
  simp [Access.interlocked, regionOf_not_interlocked h]

theorem State.dropEvent_of_agenda {s : State} {e : Event} {rest : List Event} (h : s.agenda = e :: rest) :
    s.dropEvent = { s with agenda := rest } := by
  simp [State.dropEvent, h]

section
variable {s : State} {a : Access} {rest : List Event} (hh : s.held = none) (ha : s.agenda = .access a :: rest)
include hh ha

/-- An access that is not interlocked is performed in its own step, BUSY or not (R58, R62). -/
theorem step_access_not_interlocked (hl : a.interlocked = false) :
    step s = .next (State.perform { s with agenda := rest } a) := by
  have ht : s.turn = .perform a := by simp [State.turn_of_access ha hh, Access.turn, hl]
  simp only [step, ht, State.dropEvent_of_agenda ha]

/-- An interlocked access is held while a command is in flight (R61). -/
theorem step_access_held (hl : a.interlocked = true) (hi : s.inflight.isSome = true) :
    step s = .next { s with agenda := rest, held := some a } := by
  have ht : s.turn = .hold a := by simp [State.turn_of_access ha hh, Access.turn, hl, hi]
  simp only [step, ht, State.dropEvent_of_agenda ha, State.hold]

end

end Sys2Proof.Machine
end

section
/-! CERTIFICATES. The statements about the host bus and its words (spec/20_memory.md). -/

namespace Sys2Proof.Proofs

open Sys2Proof.Machine

/-- Settles O38: an access on any of the grounds is invalid, so it is not held, and performing it only adds the bus error
to the record. -/
theorem busErrorChangesNothing : Obligations.BusErrorChangesNothing := by
  unfold Obligations.BusErrorChangesNothing
  intro s a rest hh ha hbad
  have hv : a.valid = false := by rwa [Access.valid_eq_false_iff, regionOf_eq_unmapped_iff]
  rw [step_access_not_interlocked hh ha (Access.not_interlocked_of_invalid hv), State.perform_invalid hv, State.respond]

/-- Settles O41: a field register's words are slices of it, and replacing a slice is a write of that register alone. -/
theorem fieldRegisterWords : Obligations.FieldRegisterWords := by
  unfold Obligations.FieldRegisterWords
  intro s k j v
  dsimp only
  refine ⟨?_, fun j' => ?_, fun k' hk => ?_, ?_⟩
  · rw [State.readWord_field, toNat_readSlice]
  · rw [State.writeWord_field, State.readWord_field, State.readWord_field, State.setReg_reg_self, readSlice_writeSlice]
  · rw [State.writeWord_field, State.setReg_reg_of_ne _ _ hk]
  · rw [State.writeWord_field, State.setReg]

/-- Settles O43: a buffer word is its four bytes packed, and a write puts there the four bytes of the value. -/
theorem bufferWordsPackBigEndian : Obligations.BufferWordsPackBigEndian := by
  unfold Obligations.BufferWordsPackBigEndian
  intro s off v _ hoff
  have hr : regionOf off = .buffer := (regionOf_eq_buffer_iff off).mpr hoff
  refine ⟨?_, s.readWord_writeWord_buffer hr v, fun a => s.writeWord_byte_outside hr v, ?_⟩
  · rw [State.readWord_buffer _ hr, toNat_packWord]
  · rw [State.writeWord_buffer _ hr]

/-- Settles O45: the offset decides whether the range is interlocked, and that decides between performing and holding. -/
theorem idCtrlStatusNeverHeld : Obligations.IdCtrlStatusNeverHeld := by
  unfold Obligations.IdCtrlStatusNeverHeld
  intro s a rest hh ha
  exact ⟨fun ho => step_access_not_interlocked hh ha (Access.not_interlocked_of_lt ho),
    fun ho hv hi => step_access_held hh ha (Access.interlocked_of_valid hv ho) hi⟩

end Sys2Proof.Proofs
end

section
/-! SUPPORT. The formats as the shifts and ORs of R86, the rows of R85 as arithmetic on the word, and the words that decode
(spec/30_encoding.md R85 to R88). -/

namespace Sys2Proof

open Sys2Proof.Safety

/-! ### The formats, field by field -/

/-- Format R as the OR of its shifted fields (R86). -/
theorem toNat_formatR_or (op : BitVec 8) (rd ra rb : BitVec 4) : (formatR op rd ra rb).toNat =
    op.toNat <<< 24 ||| rd.toNat <<< 20 ||| ra.toNat <<< 16 ||| rb.toNat <<< 12 := by
  have h : (formatR op rd ra rb).toNat = (op ++ rd ++ ra ++ rb ++ 0#12).toNat := rfl
  rw [h]
  simp only [BitVec.toNat_append, Nat.shiftLeft_or_distrib, ← Nat.shiftLeft_add]
  simp

/-- Format X as the OR of its shifted fields (R86). -/
theorem toNat_formatX_or (op : BitVec 8) (n : BitVec 16) : (formatX op n).toNat = op.toNat <<< 24 ||| n.toNat := by
  have h : (formatX op n).toNat = (op ++ 0#8 ++ n).toNat := rfl
  rw [h]
  simp only [BitVec.toNat_append]
  simp [← Nat.shiftLeft_add]

/-- Format B as the OR of its shifted fields (R86). -/
theorem toNat_formatB_or (op : BitVec 8) (rd : BitVec 4) (len : BitVec 6) (off : BitVec 14) :
    (formatB op rd len off).toNat = op.toNat <<< 24 ||| rd.toNat <<< 20 ||| len.toNat <<< 14 ||| off.toNat := by
  have h : (formatB op rd len off).toNat = (op ++ rd ++ len ++ off).toNat := rfl
  rw [h]
  simp only [BitVec.toNat_append, Nat.shiftLeft_or_distrib, ← Nat.shiftLeft_add]

/-! ### The rows of the opcode map -/

/-- The mask of a row: the opcode bits, and the `size` must-be-zero bits from bit `lo` up (R85). -/
def rowMask (lo size : Nat) : Word := BitVec.ofNat 32 ((2 ^ 8 - 1) <<< 24 ||| (2 ^ size - 1) <<< lo)

/-- A run of ones cuts a field out of a number and leaves it in its place. -/
theorem and_shifted_ones (x k n : Nat) : x &&& (2 ^ n - 1) <<< k = x / 2 ^ k % 2 ^ n * 2 ^ k := by
  rw [← Nat.shiftRight_eq_div_pow, ← Nat.and_two_pow_sub_one_eq_mod, ← Nat.shiftLeft_eq]
  refine Nat.eq_of_testBit_eq fun i => ?_
  by_cases h : k ≤ i
  · simp [Nat.testBit_shiftLeft, h, Bool.and_comm]
  · simp [Nat.testBit_shiftLeft, h]

/-- A field below the opcode, in its place, stays below the opcode. -/
theorem field_in_place_lt (w : Word) {lo size : Nat} (h : lo + size ≤ 24) :
    w.toNat / 2 ^ lo % 2 ^ size * 2 ^ lo < 2 ^ 24 :=
  calc w.toNat / 2 ^ lo % 2 ^ size * 2 ^ lo < 2 ^ size * 2 ^ lo :=
        Nat.mul_lt_mul_of_pos_right (Nat.mod_lt _ (by positivity)) (by positivity)
    _ = 2 ^ (lo + size) := by rw [Nat.pow_add, Nat.mul_comm]
    _ ≤ 2 ^ 24 := Nat.pow_le_pow_right (by decide) h

/-- What a row's mask leaves of a word: its opcode and its must-be-zero field, each in its place. -/
theorem toNat_and_rowMask (w : Word) {lo size : Nat} (h : lo + size ≤ 24) :
    (w &&& rowMask lo size).toNat = w.toNat / 2 ^ 24 * 2 ^ 24 + w.toNat / 2 ^ lo % 2 ^ size * 2 ^ lo := by
  have hw := w.isLt
  have hfield := field_in_place_lt w h
  have hop : w.toNat / 2 ^ 24 % 2 ^ 8 = w.toNat / 2 ^ 24 := by omega
  have hcut : w &&& rowMask lo size =
      BitVec.ofNat 32 (w.toNat &&& ((2 ^ 8 - 1) <<< 24 ||| (2 ^ size - 1) <<< lo)) := by
    rw [rowMask, BitVec.ofNat_and, BitVec.ofNat_toNat, BitVec.setWidth_eq]
  rw [hcut, BitVec.toNat_ofNat, Nat.and_or_distrib_left, and_shifted_ones, and_shifted_ones, hop, ← Nat.shiftLeft_eq _ 24,
    ← Nat.shiftLeft_add_eq_or_of_lt hfield, Nat.shiftLeft_eq]
  omega

/-- A row selects a word exactly when the word has the row's opcode and the row's must-be-zero field is zero
(R85, R88). -/
theorem and_rowMask_eq_iff (w : Word) {op lo size : Nat} (hop : op < 2 ^ 8) (h : lo + size ≤ 24) :
    w &&& rowMask lo size = BitVec.ofNat 32 (op * 2 ^ 24) ↔
      w.toNat / 2 ^ 24 = op ∧ w.toNat / 2 ^ lo % 2 ^ size = 0 := by
  rw [← BitVec.toNat_inj, toNat_and_rowMask w h, BitVec.toNat_ofNat]
  have hfield := field_in_place_lt w h
  have hz : w.toNat / 2 ^ lo % 2 ^ size * 2 ^ lo = 0 ↔ w.toNat / 2 ^ lo % 2 ^ size = 0 := by simp
  omega

/-- The rows of R85 as opcode, and lowest bit and size of the must-be-zero field; B2F has no such field. -/
def rowFields : List (Nat × Nat × Nat) :=
  [(0x01, 0, 12), (0x02, 0, 12), (0x03, 0, 12), (0x04, 0, 16), (0x05, 0, 16), (0x06, 0, 16), (0x07, 0, 20),
   (0x10, 16, 8), (0x11, 0, 16), (0x12, 0, 0)]

theorem opcodeRows_eq : opcodeRows = rowFields.map fun r => (BitVec.ofNat 32 (r.1 * 2 ^ 24), rowMask r.2.1 r.2.2) := by
  decide

/-- The words a row selects, by their opcode and must-be-zero field (R85, R88). -/
theorem selected_iff (w : Word) : (∃ row ∈ opcodeRows, w &&& row.2 = row.1) ↔
    ∃ r ∈ rowFields, w.toNat / 2 ^ 24 = r.1 ∧ w.toNat / 2 ^ r.2.1 % 2 ^ r.2.2 = 0 := by
  have hrows : ∀ r ∈ rowFields, r.1 < 2 ^ 8 ∧ r.2.1 + r.2.2 ≤ 24 := by decide
  simp only [opcodeRows_eq, List.mem_map, exists_exists_and_eq_and]
  refine exists_congr fun r => and_congr_right fun hr => ?_
  obtain ⟨hop, hfit⟩ := hrows r hr
  exact and_rowMask_eq_iff w hop hfit

/-- The full mask of B2F's row selects the words with its opcode, every `len` and `off` (R85). -/
theorem b2f_selected_iff (w : Word) : w &&& 0xFF000000#32 = 0x12000000#32 ↔ w.toNat / 2 ^ 24 = 0x12 := by
  refine (and_rowMask_eq_iff w (op := 0x12) (lo := 0) (size := 0) (by decide) (by decide)).trans ?_
  simp [Nat.mod_one]

/-! ### The words that decode -/

/-- The legal words are those R87 does not name illegal. -/
theorem decode_ok_iff (w : Word) : (∃ i, decode w = .ok i) ↔ ¬ IllegalWord w := by
  rw [← Machine.decode_error_iff]
  cases decode w <;> simp

/-- R87 and R88 name the same words: those no ground makes illegal are those a row selects, less B2F with `len` over 48. -/
theorem not_illegalWord_iff (w : Word) : ¬ IllegalWord w ↔
    (∃ r ∈ rowFields, w.toNat / 2 ^ 24 = r.1 ∧ w.toNat / 2 ^ r.2.1 % 2 ^ r.2.2 = 0) ∧
      ¬ (w.toNat / 2 ^ 24 = 0x12 ∧ 48 < w.toNat / 2 ^ 14 % 2 ^ 6) := by
  by_cases ho : w.toNat / 2 ^ 24 ∈ [0x01, 0x02, 0x03, 0x04, 0x05, 0x06, 0x07, 0x10, 0x11, 0x12]
  · simp only [List.mem_cons, List.not_mem_nil, or_false, Nat.reducePow] at ho
    rcases ho with ho | ho | ho | ho | ho | ho | ho | ho | ho | ho <;> simp [IllegalWord, rowFields, ho, Nat.mod_one]
  · refine iff_of_false (not_not.mpr (.inl ho)) fun ⟨⟨r, hr, hop, _⟩, _⟩ => ho ?_
    exact hop ▸ List.mem_map_of_mem (f := Prod.fst) hr

end Sys2Proof
end

section
/-! SUPPORT. What a command does that only writes one field register (spec/60_exceptions.md R215), and FCLR as one. -/

namespace Sys2Proof.Machine

open Sys2Proof.Safety

/-- A completion that wrote one canonical value to one field register, and nothing else. -/
theorem wroteField_setField (s : State) (rd : Reg) {v : Nat} (hv : v < Config.p) :
    WroteField s (s.setField rd v).completeOk rd v where
  value := by rw [State.completeOk_reg, State.setField_reg_self, toNat_ofNat_of_lt hv]
  succeeded := ⟨rfl, rfl, rfl, rfl⟩
  regs _ hk := s.setField_reg_of_ne v (List.mem_singleton.not.mp hk)
  buffers _ := rfl
  control := ⟨rfl, rfl, rfl, rfl, rfl, rfl, rfl, rfl⟩

/-- FCLR never fails, and the empty chunk it reduces is 0 (R91). -/
theorem exec_fclr (d : Reg) (s : State) : exec (.fclr d) s = .next (s.setField d 0).completeOk :=
  execB2f_ok d (by decide) (by decide)

end Sys2Proof.Machine
end

section
/-! CERTIFICATES. The statements about the encoding (spec/30_encoding.md). -/

namespace Sys2Proof.Proofs

open Sys2Proof.Machine Sys2Proof.Safety

/-- Settles O2: every encoding is one of the three formats, and each is the OR of its shifted fields. -/
theorem encodingIsShiftedFields : Obligations.EncodingIsShiftedFields := by
  unfold Obligations.EncodingIsShiftedFields
  refine ⟨fun rd ra rb => ?_, fun rd ra => ?_, fun rd => ?_, fun n => toNat_formatX_or _ n,
    fun rd len off => toNat_formatB_or _ _ len off⟩
  · exact ⟨toNat_formatR_or _ _ _ _, toNat_formatR_or _ _ _ _, toNat_formatR_or _ _ _ _⟩
  · simp [encode, toNat_formatR_or]
  · simp [encode, toNat_formatR_or]

/-- Settles O5: the decoder refuses exactly the words of R87, and these are the words that R88 leaves out. -/
theorem legalWordsAreTheRowsWords : Obligations.LegalWordsAreTheRowsWords := by
  unfold Obligations.LegalWordsAreTheRowsWords
  refine ⟨fun w => ?_, ?_⟩
  · rw [decode_ok_iff, not_illegalWord_iff, selected_iff, b2f_selected_iff]
  · rw [decode_ok_iff]
    decide

/-- Settles O6: an illegal word is one the decoder refuses, and running such a word is the error completion. -/
theorem illegalWordCompletesWithErrorOne : Obligations.IllegalWordCompletesWithErrorOne := by
  unfold Obligations.IllegalWordCompletesWithErrorOne
  intro s w hw ht
  obtain ⟨e, he⟩ := (decode_error_iff w).mpr hw
  simp only [step, ht]
  exact runCommand_error he s

/-- Settles O22: each pseudo-instruction is its expansion, so the law of the expansion gives its effect. -/
theorem pseudoInstructionEffects : Obligations.PseudoInstructionEffects := by
  unfold Obligations.PseudoInstructionEffects
  refine ⟨fun d a s ha => ⟨_, execFmul_ok d ha ha, ?_⟩, fun d a s ha => execFmul_error d (.inl ha),
    fun d s => ⟨_, exec_fclr d s, wroteField_setField s d p_pos⟩,
    fun d s => ⟨_, execFred_ok d d s, wroteField_setField s d (mod_p_lt _)⟩, fun _ _ _ => rfl,
    fun _ _ => ⟨rfl, rfl, rfl, rfl⟩⟩
  rw [Nat.pow_two]
  exact wroteField_setField s d (mod_p_lt _)

end Sys2Proof.Proofs
end

section
/-! SUPPORT. The words of Format R, field by field (spec/30_encoding.md R81, R85), and what running an illegal word does
(R87). -/

namespace Sys2Proof

open Sys2Proof.Safety

/-! ### The fields of a Format R word -/

theorem toNat_formatRWord {op : Nat} (hop : op < 2 ^ 8) (rd ra rb : Reg) :
    (formatRWord op rd ra rb).toNat = op * 2 ^ 24 + rd * 2 ^ 20 + ra * 2 ^ 16 + rb * 2 ^ 12 := by
  rw [formatRWord, BitVec.toNat_ofNat]
  exact Nat.mod_eq_of_lt (by omega)

theorem toNat_opcodeOf_formatRWord {op : Nat} (hop : op < 2 ^ 8) (rd ra rb : Reg) :
    (opcodeOf (formatRWord op rd ra rb)).toNat = op := by
  rw [toNat_opcodeOf, toNat_formatRWord hop]
  omega

theorem rdOf_formatRWord {op : Nat} (hop : op < 2 ^ 8) (rd ra rb : Reg) : rdOf (formatRWord op rd ra rb) = rd := by
  rw [Fin.ext_iff, val_rdOf, toNat_formatRWord hop]
  omega

theorem raOf_formatRWord {op : Nat} (hop : op < 2 ^ 8) (rd ra rb : Reg) : raOf (formatRWord op rd ra rb) = ra := by
  rw [Fin.ext_iff, val_raOf, toNat_formatRWord hop]
  omega

theorem rbOf_formatRWord {op : Nat} (hop : op < 2 ^ 8) (rd ra rb : Reg) : rbOf (formatRWord op rd ra rb) = rb := by
  rw [Fin.ext_iff, val_rbOf, toNat_formatRWord hop]
  omega

/-! ### Must-be-zero bits at the low end of a Format R word -/

theorem ifZero_formatRWord {op : Nat} (hop : op < 2 ^ 8) (rd ra rb : Reg) (i : Instr) :
    ifZero (formatRWord op rd ra rb) 0 12 i = .ok i := by
  rw [ifZero, if_pos]
  rw [extract_eq_zero_iff, toNat_formatRWord hop]
  omega

theorem ifZero_formatRWord_two {op : Nat} (hop : op < 2 ^ 8) (rd ra : Reg) (i : Instr) :
    ifZero (formatRWord op rd ra (0 : Reg)) 0 16 i = .ok i := by
  rw [ifZero, if_pos]
  rw [extract_eq_zero_iff, toNat_formatRWord hop, Fin.val_zero]
  omega

theorem ifZero_formatRWord_one {op : Nat} (hop : op < 2 ^ 8) (rd : Reg) (i : Instr) :
    ifZero (formatRWord op rd (0 : Reg) (0 : Reg)) 0 20 i = .ok i := by
  rw [ifZero, if_pos]
  rw [extract_eq_zero_iff, toNat_formatRWord hop, Fin.val_zero]
  omega

/-! ### The commands of the field arithmetic, decoded -/

theorem decode_formatRWord_fmul (rd ra rb : Reg) : decode (formatRWord 0x01 rd ra rb) = .ok (.fmul rd ra rb) := by
  simp only [decode, toNat_opcodeOf_formatRWord, rdOf_formatRWord, raOf_formatRWord, rbOf_formatRWord,
    ifZero_formatRWord, Nat.reducePow, Nat.reduceLT]

theorem decode_formatRWord_montmul (rd ra rb : Reg) :
    decode (formatRWord 0x02 rd ra rb) = .ok (.montmul rd ra rb) := by
  simp only [decode, toNat_opcodeOf_formatRWord, rdOf_formatRWord, raOf_formatRWord, rbOf_formatRWord,
    ifZero_formatRWord, Nat.reducePow, Nat.reduceLT]

theorem decode_formatRWord_modpow (rd ra rb : Reg) : decode (formatRWord 0x03 rd ra rb) = .ok (.modpow rd ra rb) := by
  simp only [decode, toNat_opcodeOf_formatRWord, rdOf_formatRWord, raOf_formatRWord, rbOf_formatRWord,
    ifZero_formatRWord, Nat.reducePow, Nat.reduceLT]

theorem decode_formatRWord_finv (rd ra : Reg) : decode (formatRWord 0x04 rd ra (0 : Reg)) = .ok (.finv rd ra) := by
  simp only [decode, toNat_opcodeOf_formatRWord, rdOf_formatRWord, raOf_formatRWord,
    ifZero_formatRWord_two, Nat.reducePow, Nat.reduceLT]

theorem decode_formatRWord_fsqrt (rd ra : Reg) : decode (formatRWord 0x05 rd ra (0 : Reg)) = .ok (.fsqrt rd ra) := by
  simp only [decode, toNat_opcodeOf_formatRWord, rdOf_formatRWord, raOf_formatRWord,
    ifZero_formatRWord_two, Nat.reducePow, Nat.reduceLT]

theorem decode_formatRWord_fred (rd ra : Reg) : decode (formatRWord 0x06 rd ra (0 : Reg)) = .ok (.fred rd ra) := by
  simp only [decode, toNat_opcodeOf_formatRWord, rdOf_formatRWord, raOf_formatRWord,
    ifZero_formatRWord_two, Nat.reducePow, Nat.reduceLT]

theorem decode_formatRWord_frand (rd : Reg) :
    decode (formatRWord 0x07 rd (0 : Reg) (0 : Reg)) = .ok (.frand rd) := by
  simp only [decode, toNat_opcodeOf_formatRWord, rdOf_formatRWord, ifZero_formatRWord_one, Nat.reducePow,
    Nat.reduceLT]

/-- Running an illegal word is the error completion with error 1 (R87). -/
theorem runCommand_illegal {w : Word} (h : IllegalWord w) (s : Machine.State) :
    Machine.runCommand w s = .next (failed s.dropCompletion .illegal) := by
  obtain ⟨e, he⟩ := (Machine.decode_error_iff w).mpr h
  exact Machine.runCommand_error he s

end Sys2Proof
end

section
/-! SUPPORT. The square-and-multiply loop as a power (spec/40_field_arithmetic.md R103), and the inverse and the square
root as powers modulo the prime `p` (R107, R108, R111). -/

namespace Sys2Proof.Machine

/-! ### The square-and-multiply loop -/

/-- One pass multiplies the accumulator by the base to the exponent's bit. -/
theorem powLoop_acc_modEq (e : FieldWord) (i base acc : Nat) :
    (if e.getLsbD i then acc * base % Config.p else acc) ≡ acc * base ^ (e.toNat / 2 ^ i % 2) [MOD Config.p] := by
  have hbit : e.getLsbD i = decide (e.toNat / 2 ^ i % 2 = 1) := Nat.testBit_eq_decide_div_mod_eq
  rcases Nat.mod_two_eq_zero_or_one (e.toNat / 2 ^ i) with h | h
  · simp only [hbit, h, zero_ne_one, decide_false, Bool.false_eq_true, if_false, pow_zero, mul_one]
    exact Nat.ModEq.rfl
  · simp only [hbit, h, decide_true, if_true, pow_one]
    exact Nat.mod_modEq _ _

/-- The next `passes + 1` bits from bit `i`: bit `i`, and the `passes` bits above it. -/
theorem bits_succ (e i passes : Nat) :
    e / 2 ^ i % 2 ^ (passes + 1) = e / 2 ^ i % 2 + 2 * (e / 2 ^ (i + 1) % 2 ^ passes) := by
  rw [pow_succ', Nat.mod_mul, Nat.div_div_eq_div_mul, ← pow_succ]

/-- The loop from pass `i` on multiplies the accumulator by the base to the bits it still reads. -/
theorem powLoop_eq (e : FieldWord) : ∀ (passes i base acc : Nat), acc < Config.p →
    powLoop e passes i base acc = acc * base ^ (e.toNat / 2 ^ i % 2 ^ passes) % Config.p := by
  intro passes
  induction passes with
  | zero =>
    intro i base acc h
    rw [pow_zero, Nat.mod_one, pow_zero, mul_one, Nat.mod_eq_of_lt h, powLoop]
  | succ passes ih =>
    intro i base acc h
    have hacc : (if e.getLsbD i then acc * base % Config.p else acc) < Config.p := by
      split
      · exact mod_p_lt _
      · exact h
    rw [powLoop, ih _ _ _ hacc, bits_succ, pow_add base, pow_mul base, pow_two base, ← mul_assoc]
    exact (powLoop_acc_modEq e i base acc).mul ((Nat.mod_modEq _ _).pow _)

/-- `ModPow` is the power modulo `p` (R103). -/
theorem modPow_eq (b : Nat) (e : FieldWord) : modPow b e = b ^ e.toNat % Config.p := by
  rw [modPow, powLoop_eq e _ _ _ _ (by decide), one_mul, pow_zero, Nat.div_one, Nat.mod_eq_of_lt e.isLt,
    ← Nat.pow_mod]

/-! ### The inverse -/

theorem modPow_expInv (a : Nat) : modPow a (BitVec.ofNat 256 Config.expInv) = a ^ (Config.p - 2) % Config.p := by
  have he : (BitVec.ofNat 256 Config.expInv).toNat = Config.p - 2 := by decide
  rw [modPow_eq, he]

/-- The inverse of FINV is one: Fermat's little theorem. -/
theorem mul_pow_mod_p {a : Nat} (ha : a < Config.p) (h0 : a ≠ 0) :
    a * (a ^ (Config.p - 2) % Config.p) % Config.p = 1 := by
  have hco : a.Coprime Config.p := (Nat.coprime_of_lt_prime h0 ha Laws.prime_p).symm
  have hexp : Config.p - 2 + 1 = Config.p - 1 := by decide
  have hone : 1 % Config.p = 1 := by decide
  have hf : a ^ (Config.p - 1) ≡ 1 [MOD Config.p] := Nat.totient_prime Laws.prime_p ▸ Nat.ModEq.pow_totient hco
  rw [Nat.mul_mod_mod, ← pow_succ', hexp, hf, hone]

/-- A product that is 1 has no zero factor. -/
theorem ne_zero_of_mul_mod_eq_one {a b : Nat} (h : a * b % Config.p = 1) : b ≠ 0 := by
  rintro rfl
  simp at h

/-- Canonical inverses of one value are equal: each is `x * (a * y)` modulo `p`. -/
theorem eq_of_mul_mod_eq_one {a x y : Nat} (hx : x < Config.p) (hy : y < Config.p)
    (hax : a * x % Config.p = 1) (hay : a * y % Config.p = 1) : x = y := by
  have hxay : x * (a * y) % Config.p = x := by rw [← Nat.mul_mod_mod, hay, mul_one, Nat.mod_eq_of_lt hx]
  have hyax : y * (a * x) % Config.p = y := by rw [← Nat.mul_mod_mod, hax, mul_one, Nat.mod_eq_of_lt hy]
  have hswap : x * (a * y) = y * (a * x) := by ring
  rw [← hxay, hswap, hyax]

/-! ### The square root -/

theorem modPow_expSqrt (a : Nat) :
    modPow a (BitVec.ofNat 256 Config.expSqrt) = a ^ ((Config.p + 1) / 4) % Config.p := by
  have he : (BitVec.ofNat 256 Config.expSqrt).toNat = (Config.p + 1) / 4 := by decide
  rw [modPow_eq, he]

/-- The candidate of FSQRT is a root of every square `x²`: its own square is `x^(p + 1)`, which is `x²` by Fermat. -/
theorem sqrt_candidate_sq {a x c : Nat} (hx : x * x % Config.p = a)
    (hc : c = a ^ ((Config.p + 1) / 4) % Config.p) : c * c % Config.p = a := by
  have hexp : 2 * ((Config.p + 1) / 4 * 2) = Config.p + 1 := by decide
  have hf : x ^ Config.p ≡ x [MOD Config.p] := by
    have : Fact Config.p.Prime := ⟨Laws.prime_p⟩
    rw [← ZMod.natCast_eq_natCast_iff, Nat.cast_pow, ZMod.pow_card]
  calc c * c % Config.p
      = (x * x) ^ ((Config.p + 1) / 4 * 2) % Config.p := by
        rw [hc, ← Nat.mul_mod, ← pow_two, ← pow_mul, ← hx, ← Nat.pow_mod]
    _ = x ^ (Config.p + 1) % Config.p := by rw [← pow_two, ← pow_mul, hexp]
    _ = a := by rw [pow_succ, ← hx]; exact hf.mul_right x

/-- The candidate of FSQRT is a root exactly when the operand is a square (R108). -/
theorem sqrt_candidate_iff {a c : Nat} (hc : c = a ^ ((Config.p + 1) / 4) % Config.p) :
    c * c % Config.p = a ↔ ∃ x, x < Config.p ∧ x * x % Config.p = a :=
  ⟨fun h => ⟨c, hc ▸ mod_p_lt _, h⟩, fun ⟨_, _, hx⟩ => sqrt_candidate_sq hx hc⟩

end Sys2Proof.Machine
end

section
/-! SUPPORT. The commands that compute a power, FSQRT's FOUND and FRAND's draw beside the one register each writes
(spec/40_field_arithmetic.md R106 to R108, R110). -/

namespace Sys2Proof.Machine

open Sys2Proof.Safety

theorem exec_modpow (rd ra rb : Reg) (s : State) : exec (.modpow rd ra rb) s =
    .next (s.setField rd (((s.reg ra).toNat % Config.p) ^ (s.reg rb).toNat % Config.p)).completeOk := by
  rw [← Nat.pow_mod, ← modPow_eq]
  exact execModpow_ok rd ra rb s

theorem exec_finv_ok {s : State} {ra : Reg} (rd : Reg) (ha : Canonical (s.reg ra)) (h0 : (s.reg ra).toNat ≠ 0) :
    exec (.finv rd ra) s = .next (s.setField rd ((s.reg ra).toNat ^ (Config.p - 2) % Config.p)).completeOk := by
  rw [← modPow_expInv]
  exact execFinv_ok rd ha h0

theorem exec_fsqrt_ok {s : State} {ra : Reg} (rd : Reg) (ha : Canonical (s.reg ra)) {c : Nat}
    (hc : c = (s.reg ra).toNat ^ ((Config.p + 1) / 4) % Config.p) : exec (.fsqrt rd ra) s =
      .next ((s.setField rd c).setFound (c * c % Config.p == (s.reg ra).toNat)).completeOk := by
  rw [hc, ← modPow_expSqrt]
  exact execFsqrt_ok rd ha

/-- Writing FOUND beside a field register adds nothing to what else changes. -/
theorem wroteField_setFound (s : State) (rd : Reg) {v : Nat} (hv : v < Config.p) (f : Bool) :
    WroteField s ((s.setField rd v).setFound f).completeOk rd v where
  value := (wroteField_setField s rd hv).value
  succeeded := ⟨rfl, rfl, rfl, rfl⟩
  regs := (wroteField_setField s rd hv).regs
  buffers _ := rfl
  control := ⟨rfl, rfl, rfl, rfl, rfl, rfl, rfl, rfl⟩

/-- A draw of entropy before the write of a field register changes nothing else but the record of the ports. -/
theorem wroteField_logEntropy (s : State) (rd : Reg) {v : Nat} (hv : v < Config.p) :
    WroteField s (s.logEntropy.setField rd v).completeOk rd v where
  value := (wroteField_setField s.logEntropy rd hv).value
  succeeded := ⟨rfl, rfl, rfl, rfl⟩
  regs := (wroteField_setField s.logEntropy rd hv).regs
  buffers _ := rfl
  control := ⟨rfl, rfl, rfl, rfl, rfl, rfl, rfl, rfl⟩

/-- A remainder that a command wrote is canonical. -/
theorem canonical_of_wroteField {s t : State} {rd : Reg} {x : Nat} (h : WroteField s t rd (x % Config.p)) :
    Canonical (t.reg rd) := h.value.trans_lt (mod_p_lt x)

/-- A register holds less than six times `p`. -/
theorem toNat_div_p_le (v : FieldWord) : v.toNat / Config.p ≤ 5 := by
  have h6 : 2 ^ 256 ≤ 6 * Config.p := by decide
  exact Nat.le_of_lt_succ ((Nat.div_lt_iff_lt_mul p_pos).mpr (v.isLt.trans_le h6))

end Sys2Proof.Machine
end

section
/-! CERTIFICATES. The statements about field arithmetic (spec/40_field_arithmetic.md). -/

namespace Sys2Proof.Proofs

open Sys2Proof.Machine Sys2Proof.Safety

/-- Settles O12: FMUL's two outcomes are one write of a remainder and one error completion. -/
theorem fmulWritesProduct : Obligations.FmulWritesProduct := by
  unfold Obligations.FmulWritesProduct
  exact ⟨fun rd ra rb s ha hb => ⟨_, execFmul_ok rd ha hb, wroteField_setField s rd (mod_p_lt _), rfl, rfl, rfl⟩,
    fun rd ra rb s h => execFmul_error rd h, decode_formatRWord_fmul,
    fun w s ho hz => runCommand_illegal (.inr (.inl ⟨by rw [ho]; decide, hz⟩)) s⟩

/-- Settles O13: as FMUL; that `R_INV` is the inverse of the radix is a computation. -/
theorem montmulWritesMontgomeryProduct : Obligations.MontmulWritesMontgomeryProduct := by
  unfold Obligations.MontmulWritesMontgomeryProduct
  exact ⟨by decide,
    fun rd ra rb s ha hb => ⟨_, execMontmul_ok rd ha hb, wroteField_setField s rd (mod_p_lt _), rfl, rfl, rfl⟩,
    fun rd ra rb s h => execMontmul_error rd h, decode_formatRWord_montmul,
    fun w s ho hz => runCommand_illegal (.inr (.inl ⟨by rw [ho]; decide, hz⟩)) s⟩

/-- Settles O15: by what the loop keeps, pass by pass. -/
theorem modPowIsPower : Obligations.ModPowIsPower := by
  unfold Obligations.ModPowIsPower
  intro b e
  rw [modPow_eq, Nat.pow_mod]

/-- Settles O16: MODPOW has no check, and its loop is the power. -/
theorem modpowWritesPower : Obligations.ModpowWritesPower := by
  unfold Obligations.ModpowWritesPower
  exact ⟨fun rd ra rb s => ⟨_, exec_modpow rd ra rb s, wroteField_setField s rd (mod_p_lt _), rfl, rfl, rfl⟩,
    decode_formatRWord_modpow, fun w s ho hz => runCommand_illegal (.inr (.inl ⟨by rw [ho]; decide, hz⟩)) s⟩

/-- Settles O17: the power FINV writes is the inverse, by Fermat's little theorem. -/
theorem finvWritesInverse : Obligations.FinvWritesInverse := by
  unfold Obligations.FinvWritesInverse
  refine ⟨fun rd ra s ha h0 => ?_, fun rd ra s ha => execFinv_error rd ha, fun rd ra s h0 => execFinv_zero rd h0,
    decode_formatRWord_finv, fun w s ho hz => runCommand_illegal (.inr (.inr (.inl ⟨by rw [ho]; decide, hz⟩))) s⟩
  have hw := wroteField_setField s rd (mod_p_lt ((s.reg ra).toNat ^ (Config.p - 2)))
  exact ⟨_, exec_finv_ok rd ha h0, hw, rfl, ⟨rfl, rfl⟩, by rw [hw.value, mul_pow_mod_p ha h0]⟩

/-- Settles O18: FOUND is the comparison of the candidate's square with the operand, and the candidate is a root of
every square. -/
theorem fsqrtWritesCandidateAndFound : Obligations.FsqrtWritesCandidateAndFound := by
  unfold Obligations.FsqrtWritesCandidateAndFound
  refine ⟨fun rd ra s ha => ?_, fun rd ra s ha => execFsqrt_error rd ha, decode_formatRWord_fsqrt,
    fun w s ho hz => runCommand_illegal (.inr (.inr (.inl ⟨by rw [ho]; decide, hz⟩))) s⟩
  obtain ⟨c, hc⟩ : ∃ c, c = (s.reg ra).toNat ^ ((Config.p + 1) / 4) % Config.p := ⟨_, rfl⟩
  have hw := wroteField_setFound s rd (hc ▸ mod_p_lt _) (c * c % Config.p == (s.reg ra).toNat)
  rw [← hc]
  refine ⟨_, exec_fsqrt_ok rd ha hc, hw, ⟨rfl, rfl⟩, ?_, ?_⟩
  · rw [hw.value]
    exact beq_iff_eq
  · exact beq_iff_eq.trans (sqrt_candidate_iff hc)

/-- Settles O19: FRED has no check; the quotient it drops is at most 5. -/
theorem fredWritesRemainder : Obligations.FredWritesRemainder := by
  unfold Obligations.FredWritesRemainder
  refine ⟨fun rd ra s => ?_, decode_formatRWord_fred,
    fun w s ho hz => runCommand_illegal (.inr (.inr (.inl ⟨by rw [ho]; decide, hz⟩))) s⟩
  have hw := wroteField_setField s rd (mod_p_lt (s.reg ra).toNat)
  exact ⟨_, execFred_ok rd ra s, hw, rfl, ⟨rfl, rfl⟩, _, toNat_div_p_le (s.reg ra),
    by rw [hw.value, Nat.mod_add_div']⟩

/-- Settles O20: FRAND has no check, and its one draw is logged before the write. -/
theorem frandWritesReducedEntropy : Obligations.FrandWritesReducedEntropy := by
  unfold Obligations.FrandWritesReducedEntropy
  exact ⟨fun rd s => ⟨_, frandWith_ok _ rd s, wroteField_logEntropy s rd (mod_p_lt _), rfl, rfl, rfl⟩,
    decode_formatRWord_frand, fun w s ho hz => runCommand_illegal (.inr (.inr (.inr (.inl ⟨ho, hz⟩)))) s⟩

/-- Settles O21: the operand and its second inverse are both inverses of the first; and what FMUL writes is a square, so
FSQRT's candidate is a root of it. -/
theorem fieldLaws : Obligations.FieldLaws := by
  unfold Obligations.FieldLaws
  obtain ⟨fmul, -⟩ := fmulWritesProduct
  obtain ⟨finv, -⟩ := finvWritesInverse
  obtain ⟨fsqrt, -⟩ := fsqrtWritesCandidateAndFound
  refine ⟨fun a b c s ha h0 => ?_, fun a b c d s ha => ?_⟩
  · obtain ⟨t, ht, hwt, -, -, hab⟩ := finv b a s ha h0
    refine ⟨t, ht, ?_, fun hne => ?_⟩
    · obtain ⟨u, hu, hwu, -, -, hbc⟩ := finv c b t (canonical_of_wroteField hwt) (ne_zero_of_mul_mod_eq_one hab)
      rw [mul_comm] at hab
      exact ⟨u, hu, BitVec.eq_of_toNat_eq (eq_of_mul_mod_eq_one (canonical_of_wroteField hwu) ha hbc hab)⟩
    · have hra : t.reg a = s.reg a := hwt.regs a (List.mem_singleton.not.mpr hne)
      obtain ⟨v, hv, hwv, -⟩ := fmul c a b t (hra ▸ ha) (canonical_of_wroteField hwt)
      exact ⟨v, hv, by rw [hwv.value, hra, hab]⟩
  · obtain ⟨t, ht, hwt, -⟩ := fmul b a a s ha ha
    obtain ⟨u, hu, hwu, -, hroot, hsquare⟩ := fsqrt c b t (canonical_of_wroteField hwt)
    have hfound : u.found = true := hsquare.mpr ⟨_, ha, hwt.value.symm⟩
    obtain ⟨v, hv, hwv, -⟩ := fmul d c c u (canonical_of_wroteField hwu) (canonical_of_wroteField hwu)
    exact ⟨t, ht, u, hu, hfound, v, hv, BitVec.eq_of_toNat_eq (hwv.value.trans (hroot.mp hfound))⟩

end Sys2Proof.Proofs
end

section
/-! SUPPORT. The expansion over any hash (spec/41_message_expansion.md R142, R143, R145): its blocks and its hash calls
by the recurrence, and how long each is. -/

namespace Sys2Proof.Machine

open Sys2Proof.Safety

/-! ### Lengths of byte strings -/

@[simp] theorem i2osp_length (x n : Nat) : (i2osp x n).length = n := by simp [i2osp]

@[simp] theorem bytesOf_length (n : Nat) (v : Byte) : (bytesOf n v).length = n := List.length_replicate

@[simp] theorem strxor_length (s t : List Byte) : (strxor s t).length = min s.length t.length := List.length_zipWith

@[simp] theorem bytesOfLane_length (l : Lane) : (bytesOfLane l).length = 8 := by simp [bytesOfLane]

/-- The block's hash is four lanes of eight bytes (R197). -/
theorem digests32_hash : Digests32 hash := fun s => by simp [hash, keccak256]

@[simp] theorem dstPrime_length (dst : List Byte) : (dstPrime dst).length = dst.length + 1 := by simp [dstPrime]

theorem firstInput_length (dst msg : List Byte) (n : Nat) :
    (firstInput dst msg n).length = 140 + msg.length + dst.length := by
  simp only [firstInput, Config.zPadLen, List.length_append, bytesOf_length, i2osp_length, dstPrime_length]
  omega

theorem blockInput_length {chain : List Byte} (h : chain.length = 32) (i : Nat) (dst : List Byte) :
    (blockInput chain i dst).length = 34 + dst.length := by
  simp only [blockInput, List.length_append, h, i2osp_length, dstPrime_length]
  omega

/-! ### The recurrence -/

theorem blockAfter_length {H : List Byte → List Byte} (hH : Digests32 H) (dst b0 : List Byte) (j : Nat) :
    (blockAfter H dst b0 j).length = 32 := by
  cases j <;> exact hH _

/-- The input of the hash call whose digest is `b[j + 1]` (R142 steps 2 and 3). -/
def blockCall (H : List Byte → List Byte) (dst b0 : List Byte) : Nat → List Byte
  | 0 => blockInput b0 1 dst
  | j + 1 => blockInput (strxor b0 (blockAfter H dst b0 j)) (j + 2) dst

theorem hash_blockCall (H : List Byte → List Byte) (dst b0 : List Byte) (j : Nat) :
    H (blockCall H dst b0 j) = blockAfter H dst b0 j := by
  cases j <;> rfl

theorem blockCall_length {H : List Byte → List Byte} (hH : Digests32 H) {b0 : List Byte} (h0 : b0.length = 32)
    (dst : List Byte) (j : Nat) : (blockCall H dst b0 j).length = 34 + dst.length := by
  cases j with
  | zero => exact blockInput_length h0 _ _
  | succ j => exact blockInput_length (by rw [strxor_length, h0, blockAfter_length hH, min_self]) _ _

/-- A pass of step 3 that is not the last emits its block and calls the hash for the next one. -/
theorem expandBlocks_pass (H : List Byte → List Byte) (dst b0 : List Byte) (n left j : Nat) :
    expandBlocks H dst b0 n (left + 2) (j + 1) (blockAfter H dst b0 j) =
      ⟨(blockAfter H dst b0 j).take (min 32 (n - j * 32)) ++
          (expandBlocks H dst b0 n (left + 1) (j + 2) (blockAfter H dst b0 (j + 1))).out,
        blockCall H dst b0 (j + 1) ::
          (expandBlocks H dst b0 n (left + 1) (j + 2) (blockAfter H dst b0 (j + 1))).calls⟩ := by
  rw [expandBlocks, if_neg (Nat.succ_ne_zero left)]
  rfl

/-- The passes of step 3 from the block `b[j + 1]` on: each emits its own block, cut to what is left of the `n` bytes,
and each but the last calls the hash. -/
theorem expandBlocks_eq (H : List Byte → List Byte) (dst b0 : List Byte) (n : Nat) : ∀ left j : Nat,
    expandBlocks H dst b0 n left (j + 1) (blockAfter H dst b0 j) =
      ⟨(List.range' j left).flatMap fun k => (blockAfter H dst b0 k).take (min 32 (n - k * 32)),
        (List.range' (j + 1) (left - 1)).map (blockCall H dst b0)⟩
  | 0, _ => rfl
  | 1, j => by simp [expandBlocks]
  | left + 2, j => by
    rw [expandBlocks_pass, expandBlocks_eq H dst b0 n (left + 1) (j + 1)]
    rfl

/-- Cutting a row of 32-byte blocks to `n` bytes is cutting each block to what is left of them. -/
theorem flatMap_take_blocks {f : Nat → List Byte} (hf : ∀ k, (f k).length = 32) (n : Nat) : ∀ left j : Nat,
    ((List.range' j left).flatMap fun k => (f k).take (min 32 (n - k * 32))) =
      ((List.range' j left).flatMap f).take (n - j * 32)
  | 0, _ => List.take_nil.symm
  | left + 1, j => by
    have hrest : n - j * 32 - 32 = n - (j + 1) * 32 := by omega
    rw [List.range'_succ, List.flatMap_cons, List.flatMap_cons, flatMap_take_blocks hf n left (j + 1),
      List.take_append, hf, hrest, List.take_eq_take_min (i := n - j * 32), hf, min_comm]

/-! ### The whole expansion -/

theorem expandWith_out {H : List Byte → List Byte} (hH : Digests32 H) (dst msg : List Byte) (n : Nat) :
    (expandWith H dst msg n).out =
      ((List.range ((n + 31) / 32)).flatMap (blockAfter H dst (H (firstInput dst msg n)))).take n := by
  have h := expandBlocks_eq H dst (H (firstInput dst msg n)) n ((n + 31) / 32) 0
  rw [flatMap_take_blocks (blockAfter_length hH _ _), Nat.zero_mul, Nat.sub_zero, ← List.range_eq_range'] at h
  exact congrArg Expansion.out h

/-- The calls are that of `b[0]` and then those of the blocks, of which `b[1]` is computed even when none is emitted
(R143). -/
theorem expandWith_calls (H : List Byte → List Byte) (dst msg : List Byte) (n : Nat) :
    (expandWith H dst msg n).calls = firstInput dst msg n ::
      (List.range ((n + 31) / 32 - 1 + 1)).map (blockCall H dst (H (firstInput dst msg n))) := by
  have h := expandBlocks_eq H dst (H (firstInput dst msg n)) n ((n + 31) / 32) 0
  rw [List.range_eq_range', List.range'_succ]
  exact congrArg (fun x => firstInput dst msg n :: blockInput (H (firstInput dst msg n)) 1 dst :: x.calls) h

/-- The output has exactly `n` bytes (R145). -/
theorem expandWith_out_length {H : List Byte → List Byte} (hH : Digests32 H) (dst msg : List Byte) (n : Nat) :
    (expandWith H dst msg n).out.length = n := by
  rw [expandWith_out hH, List.length_take, List.length_flatMap]
  simp only [blockAfter_length hH, List.map_const', List.length_range, List.sum_replicate_nat]
  omega

end Sys2Proof.Machine
end

section
/-! SUPPORT. What XMD does to OUT and to the rest of the block (spec/41_message_expansion.md R146, R147), and its word
(spec/30_encoding.md R82). -/

namespace Sys2Proof.Machine

open Sys2Proof.Safety

/-! ### OUT after it is written -/

/-- A byte string written to OUT is read back from `OUT[0]` up. -/
theorem State.writeOut_out (s : State) {l : List Byte} {j : Nat} (h : j < l.length) :
    some ((s.writeOut l).out j) = l[j]? := by
  rw [State.out, State.writeOut_byte, if_pos (by omega), Nat.add_sub_cancel_left, List.getD_eq_getElem _ _ h,
    List.getElem?_eq_getElem h]

/-- The bytes below OUT and those after the string stay. -/
theorem State.writeOut_byte_outside (s : State) {l : List Byte} {a : Nat}
    (h : a < Config.outBase ∨ Config.outBase + l.length ≤ a) : (s.writeOut l).byte a = s.byte a :=
  Memory.read_writeBytes_outside h

/-! ### The checks before an expansion -/

theorem State.checkExpansion_domain {s : State} (n : Nat) (hd : 255 < s.dstLen.toNat) :
    s.checkExpansion n = .error .invalidDomainLength := by
  rw [State.checkExpansion_eq, if_pos hd]

theorem State.checkExpansion_message {s : State} (n : Nat) (hd : s.dstLen.toNat ≤ 255) (hm : 4096 < s.msgLen.toNat) :
    s.checkExpansion n = .error .bounds := by
  rw [State.checkExpansion_eq, if_neg hd.not_gt, if_pos hm]

theorem State.checkExpansion_output {s : State} {n : Nat} (hd : s.dstLen.toNat ≤ 255) (hm : s.msgLen.toNat ≤ 4096)
    (hn : 8160 < n) : s.checkExpansion n = .error .outputLength := by
  rw [State.checkExpansion_eq, if_neg hd.not_gt, if_neg hm.not_gt, if_pos hn]

/-! ### The word of XMD -/

/-- A word with the opcode 0x10, a zero field [23:16] and the field `n` is XMD's (R82, R85). -/
theorem decode_of_xmd_fields {w : Word} {n : BitVec 16} (hw : w.toNat = 0x10 * 2 ^ 24 + n.toNat) :
    decode w = .ok (.xmd n) := by
  have hop : (opcodeOf w).toNat = 0x10 := by
    rw [toNat_opcodeOf, hw]
    omega
  have hz : w.extractLsb' 16 8 = 0 := by
    rw [extract_eq_zero_iff, hw]
    omega
  have hn : nOf w = n := by
    rw [← BitVec.toNat_inj, toNat_nOf, hw]
    omega
  simp only [decode, hop, ifZero, hz, if_true, hn]

theorem decode_xmd_word (n : BitVec 16) : decode (BitVec.ofNat 32 (0x10 * 2 ^ 24 + n.toNat)) = .ok (.xmd n) := by
  refine decode_of_xmd_fields ?_
  rw [BitVec.toNat_ofNat]
  omega

end Sys2Proof.Machine
end

section
/-! CERTIFICATES. The statements about message expansion (spec/41_message_expansion.md). -/

namespace Sys2Proof.Proofs

open Sys2Proof.Machine Sys2Proof.Safety

/-- Settles O23: pass by pass the expansion emits the recurrence's blocks, and cutting each to what is left of the `n`
bytes is cutting their concatenation. -/
theorem expandFollowsRecurrence : Obligations.ExpandFollowsRecurrence := by
  unfold Obligations.ExpandFollowsRecurrence
  exact fun H hH dst msg n => expandWith_out hH dst msg n

/-- Settles O24: the calls are listed as the first input and one input per block, whose digests are the blocks. -/
theorem hashCallCountAndLengths : Obligations.HashCallCountAndLengths := by
  unfold Obligations.HashCallCountAndLengths
  intro H hH dst msg n
  simp only [expandWith_calls, List.length_cons, List.length_map, List.length_range, Nat.add_sub_cancel]
  refine ⟨?_, ?_, _, _, rfl, firstInput_length dst msg n, ?_⟩
  · rw [List.map_cons, List.map_map]
    exact congrArg (H (firstInput dst msg n) :: ·) (List.map_congr_left fun j _ => hash_blockCall H dst _ j)
  · split <;> omega
  · intro c hc
    obtain ⟨j, -, rfl⟩ := List.mem_map.mp hc
    exact blockCall_length hH (hH _) dst j

/-- Settles O26: within the bounds XMD logs the calls and writes OUT, which changes the `n` bytes of the output and no
other; each error is the first check that fails. -/
theorem xmdWritesExpansion : Obligations.XmdWritesExpansion := by
  unfold Obligations.XmdWritesExpansion
  refine ⟨fun n s hd hm hn => ?_, fun n s hd => execXmd_error (State.checkExpansion_domain _ hd),
    fun n s hd hm => execXmd_error (State.checkExpansion_message _ hd hm),
    fun n s hd hm hn => execXmd_error (State.checkExpansion_output hd hm hn), decode_xmd_word,
    fun w s ho hz => runCommand_illegal (.inr (.inr (.inr (.inr (.inl ⟨ho, hz⟩))))) s⟩
  have hlen : (s.expand n.toNat).out.length = n.toNat := expandWith_out_length digests32_hash _ _ _
  refine ⟨_, execXmd_ok (State.checkExpansion_of_le hd hm hn), ⟨rfl, rfl, rfl, rfl⟩, rfl, fun _ _ => rfl,
    ⟨rfl, rfl, rfl, rfl, rfl, rfl, rfl, rfl⟩, rfl, rfl, fun j hj => ?_, fun a ha => ?_⟩
  · exact State.writeOut_out _ (hj.trans_eq hlen.symm)
  · exact State.writeOut_byte_outside (s.logHash (s.expand n.toNat).calls) (by rwa [hlen])

end Sys2Proof.Proofs
end

section
/-! SUPPORT. The words of H2F and B2F (spec/30_encoding.md R81, R83), the chunks of OUT, and H2F as the writes of XMD 96
followed by the reductions of its two chunks (spec/42_field_hasher.md R170 to R172). -/

namespace Sys2Proof.Machine

open Sys2Proof.Safety

/-! ### The words -/

theorem decode_formatRWord_h2f (rd rd2 : Reg) : decode (formatRWord 0x11 rd rd2 (0 : Reg)) = .ok (.h2f rd rd2) := by
  simp only [decode, toNat_opcodeOf_formatRWord, rdOf_formatRWord, raOf_formatRWord,
    ifZero_formatRWord_two, Nat.reducePow, Nat.reduceLT]

/-- A word with the opcode 0x12 and the fields `rd`, `len` and `off` is B2F's, if `len` is no reserved length (R83,
R87). -/
theorem decode_of_b2f_fields {w : Word} {rd : Reg} {len : BitVec 6} {off : BitVec 14} (hl : len.toNat ≤ 48)
    (hw : w.toNat = 0x12 * 2 ^ 24 + rd.val * 2 ^ 20 + len.toNat * 2 ^ 14 + off.toNat) :
    decode w = .ok (.b2f rd len off) := by
  have hop : (opcodeOf w).toNat = 0x12 := by
    rw [toNat_opcodeOf, hw]
    omega
  have hrd : rdOf w = rd := by
    rw [Fin.ext_iff, val_rdOf, hw]
    omega
  have hlen : lenOf w = len := by
    rw [← BitVec.toNat_inj, toNat_lenOf, hw]
    omega
  have hoff : offOf w = off := by
    rw [← BitVec.toNat_inj, toNat_offOf, hw]
    omega
  simp only [decode, hop, hrd, hlen, hoff, Config.b2fMax, hl, if_true]

theorem decode_b2f_word (rd : Reg) {len : BitVec 6} (off : BitVec 14) (hl : len.toNat ≤ 48) :
    decode (BitVec.ofNat 32 (0x12 * 2 ^ 24 + rd.val * 2 ^ 20 + len.toNat * 2 ^ 14 + off.toNat)) =
      .ok (.b2f rd len off) := by
  refine decode_of_b2f_fields hl ?_
  rw [BitVec.toNat_ofNat]
  omega

/-! ### The chunks of OUT -/

/-- A chunk of OUT, byte by byte. -/
theorem State.chunk_eq (s : State) (off len : Nat) : s.chunk off len = (List.range len).map fun j => s.out (off + j) :=
  List.map_congr_left fun j _ => congrArg s.byte (Nat.add_assoc Config.outBase off j)

/-- A chunk inside a byte string written to OUT is that part of the string. -/
theorem State.chunk_writeOut (s : State) {l : List Byte} {off len : Nat} (h : off + len ≤ l.length) :
    (s.writeOut l).chunk off len = (l.drop off).take len := by
  rw [State.chunk_eq]
  refine List.ext_getElem ?_ fun j hj _ => ?_
  · simp only [List.length_map, List.length_range, List.length_take, List.length_drop]
    omega
  have hlt : off + j < l.length := by
    rw [List.length_map, List.length_range] at hj
    omega
  rw [List.getElem_map, List.getElem_range, List.getElem_take, List.getElem_drop]
  exact Option.some.inj ((s.writeOut_out hlt).trans (List.getElem?_eq_getElem hlt))

/-! ### The 96 bytes of H2F -/

theorem State.expand_out_length (s : State) (n : Nat) : (s.expand n).out.length = n :=
  expandWith_out_length digests32_hash _ _ _

theorem State.expand_96_out_drop_length (s : State) : ((s.expand 96).out.drop 48).length = 48 := by
  rw [List.length_drop, State.expand_out_length]

/-- Two elements take three blocks, so four hash calls (R143). -/
theorem State.expand_96_calls_length (s : State) : (s.expand 96).calls.length = 4 := by
  simp only [State.expand, expandWith_calls, List.length_cons, List.length_map, List.length_range]

theorem computed_xmd_chunk_first (s : State) : (computed (.xmd 96) s).chunk 0 48 = (s.expand 96).out.take 48 :=
  State.chunk_writeOut _ (by rw [State.expand_out_length]; decide)

theorem computed_xmd_chunk_second (s : State) : (computed (.xmd 96) s).chunk 48 48 = (s.expand 96).out.drop 48 := by
  rw [← List.take_of_length_le s.expand_96_out_drop_length.le]
  exact State.chunk_writeOut _ (by rw [State.expand_out_length]; decide)

/-! ### The commands, by the chunks they reduce -/

/-- A command that only writes a field register leaves OUT as it is. -/
theorem out_of_wroteField {s t : State} {rd : Reg} {v : Nat} (h : WroteField s t rd v) : t.out = s.out :=
  funext fun _ => h.buffers _

/-- The reduction of a chunk, written to a field register and completed (R171). -/
theorem wroteField_chunk (r : Reg) (s : State) (off len : Nat) : WroteField s
    (s.setField r (reduceBytes (s.chunk off len))).completeOk r
    (os2ip ((List.range len).map fun j => s.out (off + j)) % Config.p) := by
  rw [State.chunk_eq]
  exact wroteField_setField s r (reduceBytes_lt _)

/-- The chunk at the start of OUT, without its offset. -/
theorem wroteField_first_chunk (r : Reg) (s : State) : WroteField s
    (s.setField r (reduceBytes (s.chunk 0 48))).completeOk r
    (os2ip ((List.range 48).map fun j => s.out j) % Config.p) := by
  simpa only [Nat.zero_add] using wroteField_chunk r s 0 48

/-- The first B2F of R172 passes both checks of R171. -/
theorem exec_b2f_first (a : Reg) (s : State) :
    exec (.b2f a 48 0) s = .next (s.setField a (reduceBytes (s.chunk 0 48))).completeOk :=
  execB2f_ok a (by decide) (by decide)

/-- The second B2F of R172 passes both checks of R171. -/
theorem exec_b2f_second (b : Reg) (s : State) :
    exec (.b2f b 48 48) s = .next (s.setField b (reduceBytes (s.chunk 48 48))).completeOk :=
  execB2f_ok b (by decide) (by decide)

/-- Of completions between writes of field registers only the last one counts. -/
theorem completeOk_setField_completeOk (s : State) (a b : Reg) (v w : Nat) :
    ((s.completeOk.setField a v).completeOk.setField b w).completeOk = ((s.setField a v).setField b w).completeOk := rfl

@[simp] theorem State.completeOk_chunk (s : State) (off len : Nat) : s.completeOk.chunk off len = s.chunk off len := rfl

@[simp] theorem State.setField_chunk (s : State) (r : Reg) (v off len : Nat) :
    (s.setField r v).chunk off len = s.chunk off len := rfl

theorem exec_xmd_96_ok {s : State} (hd : s.dstLen.toNat ≤ 255) (hm : s.msgLen.toNat ≤ 4096) :
    exec (.xmd 96) s = .next (computed (.xmd 96) s).completeOk :=
  execXmd_ok (State.checkExpansion_of_le hd hm (by decide))

/-- H2F writes what XMD 96 writes, and then the reductions of the two halves of the expansion. -/
theorem exec_h2f_ok {s : State} (a b : Reg) (hd : s.dstLen.toNat ≤ 255) (hm : s.msgLen.toNat ≤ 4096) :
    exec (.h2f a b) s = .next (((computed (.xmd 96) s).setField a
      (reduceBytes ((s.expand 96).out.take 48))).setField b (reduceBytes ((s.expand 96).out.drop 48))).completeOk := by
  rw [← List.take_of_length_le s.expand_96_out_drop_length.le]
  exact execH2f_ok a b (State.checkExpansion_of_le hd hm (by decide))

/-- After XMD 96 the two B2F reduce the halves of the expansion, and so end in the state H2F ends in (R172). -/
theorem exec_h2f_eq_second_b2f {s : State} (a b : Reg) (hd : s.dstLen.toNat ≤ 255) (hm : s.msgLen.toNat ≤ 4096) :
    exec (.h2f a b) s = exec (.b2f b 48 48) ((computed (.xmd 96) s).completeOk.setField a
      (reduceBytes ((computed (.xmd 96) s).completeOk.chunk 0 48))).completeOk := by
  rw [exec_h2f_ok a b hd hm, exec_b2f_second, completeOk_setField_completeOk]
  simp only [State.completeOk_chunk, State.setField_chunk, computed_xmd_chunk_first, computed_xmd_chunk_second]

end Sys2Proof.Machine
end

section
/-! CERTIFICATES. The statements about hashing to field elements (spec/42_field_hasher.md). -/

namespace Sys2Proof.Proofs

open Sys2Proof.Machine Sys2Proof.Safety

/-- Settles O27: H2F is the writes of XMD 96 and then two writes of field registers, of which the second stays where
they meet. -/
theorem h2fWritesTwoElements : Obligations.H2fWritesTwoElements := by
  unfold Obligations.H2fWritesTwoElements
  refine ⟨fun rd rd2 s hd hm => ?_, fun rd rd2 s hd => execH2f_error rd rd2 (State.checkExpansion_domain _ hd),
    fun rd rd2 s hd hm => execH2f_error rd rd2 (State.checkExpansion_message _ hd hm), decode_formatRWord_h2f,
    fun w s ho hz => runCommand_illegal (.inr (.inr (.inl ⟨by rw [ho]; decide, hz⟩))) s⟩
  have hlen := s.expand_out_length 96
  refine ⟨_, exec_h2f_ok rd rd2 hd hm, ⟨rfl, rfl, rfl, rfl⟩, rfl, fun k hk => ?_,
    ⟨rfl, rfl, rfl, rfl, rfl, rfl, rfl, rfl⟩, fun hne => ?_, ?_, rfl, s.expand_96_calls_length, rfl, fun j hj => ?_,
    fun a ha => ?_⟩
  · obtain ⟨h1, h2⟩ : k ≠ rd ∧ k ≠ rd2 := by simpa using hk
    rw [State.completeOk_reg, State.setField_reg_of_ne _ _ h2, State.setField_reg_of_ne _ _ h1]
    rfl
  · rw [State.completeOk_reg, State.setField_reg_of_ne _ _ hne, State.setField_reg_self,
      toNat_ofNat_of_lt (reduceBytes_lt _)]
    rfl
  · rw [State.completeOk_reg, State.setField_reg_self, toNat_ofNat_of_lt (reduceBytes_lt _)]
    rfl
  · exact State.writeOut_out _ (hj.trans_eq hlen.symm)
  · rw [← hlen] at ha
    exact State.writeOut_byte_outside (s.logHash (s.expand 96).calls) ha

/-- Settles O28: a B2F that decoding lets pass is one write of a remainder or one error completion. -/
theorem b2fReducesChunk : Obligations.B2fReducesChunk := by
  unfold Obligations.B2fReducesChunk
  exact ⟨fun rd len off s hl ho => ⟨_, execB2f_ok rd hl ho, wroteField_chunk rd s _ _, rfl, rfl, rfl⟩,
    fun rd len off s hl ho => execB2f_bounds rd hl ho, fun rd len off hl => decode_b2f_word rd off hl,
    fun w s ho hl => runCommand_illegal (.inr (.inr (.inr (.inr (.inr ⟨ho, hl⟩))))) s⟩

/-- Settles O29: no write of a field register and no completion touches OUT, so the two B2F reduce the chunks H2F
reduces; where XMD 96 fails, so does H2F, and the two B2F find the old OUT. -/
theorem h2fIsXmdThenTwoB2f : Obligations.H2fIsXmdThenTwoB2f := by
  unfold Obligations.H2fIsXmdThenTwoB2f
  refine ⟨fun a b s hd hm => ?_, fun a b s h => ?_⟩
  · obtain ⟨canonical, -⟩ := onlyHostWritesNonCanonical
    have hh2f := (exec_h2f_eq_second_b2f a b hd hm).trans (exec_b2f_second b _)
    have hfirst := wroteField_first_chunk a (computed (.xmd 96) s).completeOk
    have hsecond := wroteField_chunk b ((computed (.xmd 96) s).completeOk.setField a
      (reduceBytes ((computed (.xmd 96) s).completeOk.chunk 0 48))).completeOk 48 48
    refine ⟨_, _, _, exec_xmd_96_ok hd hm, exec_b2f_first a _, exec_b2f_second b _, hh2f, ⟨rfl, rfl, rfl, rfl⟩,
      hfirst.succeeded, hsecond.succeeded, canonical _ _ _ a hh2f rfl (by simp [destinations]),
      canonical _ _ _ b hh2f rfl (by simp [destinations]), fun hne => ?_, ?_⟩
    · rw [hsecond.regs a (List.mem_singleton.not.mpr hne), out_of_wroteField hsecond, out_of_wroteField hfirst,
        hfirst.value]
    · rw [out_of_wroteField hsecond, hsecond.value]
  · obtain ⟨e, he, hcheck⟩ := (s.checkExpansion_cases 96).resolve_left fun hok => by
      obtain ⟨hd, hm, -⟩ := (s.checkExpansion_ok_iff 96).mp hok
      omega
    have hfirst := wroteField_first_chunk a (failed s e)
    refine ⟨e, _, _, he, execXmd_error hcheck, execH2f_error a b hcheck, exec_b2f_first a _, exec_b2f_second b _,
      hfirst.value, ?_⟩
    rw [(wroteField_chunk b _ 48 48).value, out_of_wroteField hfirst]
    rfl

end Sys2Proof.Proofs
end

section
/-! SUPPORT. The Keccak binding of the hash port (spec/43_hash_binding.md R191 to R196): the padding in its two cases,
and each step of a round as a function of the lane's coordinates. -/

namespace Sys2Proof.Machine

/-! ### The padding (R192) -/

/-- One byte is missing: the pad byte is the last byte and takes in the `0x80`. -/
theorem keccakPad_of_one_missing {s : List Byte} (h : s.length % 136 = 135) : keccakPad s = s ++ [0x81#8] := by
  simp [keccakPad, keccakRate, h, bytesOf]

/-- More bytes are missing: the last of the zero bytes takes in the `0x80`. -/
theorem keccakPad_of_more_missing {s : List Byte} (h : s.length % 136 ≠ 135) :
    keccakPad s = s ++ [0x01#8] ++ List.replicate (134 - s.length % 136) 0x00#8 ++ [0x80#8] := by
  have hk : keccakRate - 1 - s.length % keccakRate = 134 - s.length % 136 + 1 := by unfold keccakRate; omega
  have hpadded : s ++ 0x01#8 :: bytesOf (134 - s.length % 136 + 1) 0x00#8 =
      s ++ [0x01#8] ++ List.replicate (134 - s.length % 136) 0x00#8 ++ [0x00#8] := by
    simp [bytesOf, List.replicate_succ']
  simp only [keccakPad, hk, hpadded, List.dropLast_concat, List.getLastD_concat, BitVec.zero_or]

/-- The padded input is the input, the pad byte and the zero bytes up to the end of the block. -/
theorem keccakPad_length (s : List Byte) : (keccakPad s).length = s.length + (136 - s.length % 136) := by
  by_cases h : s.length % 136 = 135
  · simp [keccakPad_of_one_missing h, h]
  · simp only [keccakPad_of_more_missing h, List.length_append, List.length_replicate, List.length_singleton]
    omega

/-! ### Lanes (R191) -/

/-- A table of `n` values reads back at its own indices. -/
theorem getD_map_range {α : Type} (g : Nat → α) (d : α) {n i : Nat} (h : i < n) :
    ((List.range n).map g).getD i d = g i := by
  simp [h]

@[simp] theorem lane_mod_left (A : List Lane) (x y : Nat) : lane A (x % 5) y = lane A x y := by simp [lane]

@[simp] theorem lane_mod_right (A : List Lane) (x y : Nat) : lane A x (y % 5) = lane A x y := by simp [lane]

theorem lane_buildLanes (f : Nat → Nat → Lane) (x y : Nat) : lane (buildLanes f) x y = f (x % 5) (y % 5) := by
  have hindex : x % 5 + 5 * (y % 5) < 25 := by omega
  have hx : (x % 5 + 5 * (y % 5)) % 5 = x % 5 := by omega
  have hy : (x % 5 + 5 * (y % 5)) / 5 = y % 5 := by omega
  rw [lane, buildLanes, getD_map_range _ _ hindex, hx, hy]

/-! ### The steps of a round (R194) -/

/-- The parity of column `x`, the `C[x]` of R194. -/
def columnParity (A : List Lane) (x : Nat) : Lane :=
  lane A x 0 ^^^ lane A x 1 ^^^ lane A x 2 ^^^ lane A x 3 ^^^ lane A x 4

theorem lane_keccakTheta (A : List Lane) {x : Nat} (y : Nat) (hx : x < 5) :
    lane (keccakTheta A) x y =
      lane A x y ^^^ (columnParity A ((x + 4) % 5) ^^^ (columnParity A ((x + 1) % 5)).rotateLeft 1) := by
  have hprev : (x + 4) % 5 < 5 := Nat.mod_lt _ (by decide)
  have hnext : (x + 1) % 5 < 5 := Nat.mod_lt _ (by decide)
  simp only [keccakTheta, lane_buildLanes, Nat.mod_eq_of_lt hx, lane_mod_right, getD_map_range _ _ hx,
    getD_map_range _ _ hprev, getD_map_range _ _ hnext, columnParity]

/-- Pi is undone by `x = u + 3 * v` mod 5: for `u = y` and `v = 2 * x + 3 * y` that is `6 * x + 10 * y`. -/
theorem lane_keccakRhoPi (A : List Lane) {x y : Nat} (hx : x < 5) (hy : y < 5) :
    lane (keccakRhoPi A) y (2 * x + 3 * y) = (lane A x y).rotateLeft (rotationOffsets.getD (x + 5 * y) 0) := by
  have hsource : (y + 3 * ((2 * x + 3 * y) % 5)) % 5 = x := by omega
  rw [keccakRhoPi, lane_buildLanes, Nat.mod_eq_of_lt hy, ← lane_mod_left, hsource]

theorem lane_keccakChi (B : List Lane) {x : Nat} (y : Nat) (hx : x < 5) :
    lane (keccakChi B) x y = lane B x y ^^^ (~~~(lane B (x + 1) y) &&& lane B (x + 2) y) := by
  simp only [keccakChi, lane_buildLanes, Nat.mod_eq_of_lt hx, lane_mod_right]

theorem lane_keccakIota (rc : Lane) (A : List Lane) {x y : Nat} (hx : x < 5) (hy : y < 5) :
    lane (keccakIota rc A) x y = if x = 0 ∧ y = 0 then lane A x y ^^^ rc else lane A x y := by
  rw [keccakIota, lane_buildLanes, Nat.mod_eq_of_lt hx, Nat.mod_eq_of_lt hy]

/-- The rounds counted by `ir` read off the table of the constants in order (R196). -/
theorem roundConstants_eq_map_range : roundConstants = (List.range 24).map fun ir => roundConstants.getD ir 0#64 := by
  decide

theorem keccakF_eq_foldl_range (A : List Lane) :
    keccakF A = (List.range 24).foldl (fun B ir => keccakRound B (roundConstants.getD ir 0#64)) A := by
  conv_lhs => rw [keccakF, roundConstants_eq_map_range, List.foldl_map]

end Sys2Proof.Machine
end

section
/-! CERTIFICATES. The statements about the binding of the hash port (spec/43_hash_binding.md). -/

namespace Sys2Proof.Proofs

open Sys2Proof.Machine

/-- Settles O31: the byte that takes in `0x80` is the pad byte where one byte is missing and the last zero byte
otherwise, and either way the block is filled. -/
theorem keccakPaddingFillsBlocks : Obligations.KeccakPaddingFillsBlocks := by
  unfold Obligations.KeccakPaddingFillsBlocks
  refine fun s => ⟨keccakPad_of_one_missing, keccakPad_of_more_missing, ?_⟩
  rw [keccakPad_length]
  omega

/-- Settles O32: each step builds its state lane by lane, and the rounds run through the table of the constants. -/
theorem keccakRoundIsThePointwiseSteps : Obligations.KeccakRoundIsThePointwiseSteps := by
  unfold Obligations.KeccakRoundIsThePointwiseSteps
  exact ⟨fun A rc x y hx hy => ⟨lane_keccakTheta A y hx, lane_keccakRhoPi A hx hy, lane_keccakChi A y hx,
    lane_keccakIota rc A hx hy⟩, fun _ _ => rfl, keccakF_eq_foldl_range⟩

end Sys2Proof.Proofs
end

section
/-! SUPPORT. Which error a command reports, said once for all ten (spec/60_exceptions.md R212): the value of `firstError` by
the operands, and the outcome of a command by `firstError`. -/

namespace Sys2Proof.Machine

open Sys2Proof.Safety

/-! ### The first error, by the operands -/

section
variable (rd ra rb : Reg) (s : State)

theorem firstError_fmul : firstError (.fmul rd ra rb) s =
    if Canonical (s.reg ra) ∧ Canonical (s.reg rb) then .none else .nonCanonical := by
  rcases Nat.lt_or_ge (s.reg ra).toNat Config.p with ha | ha
  · rcases Nat.lt_or_ge (s.reg rb).toNat Config.p with hb | hb
    · simp [firstError, Nat.not_le.mpr ha, Nat.not_le.mpr hb, ha, hb]
    · simp [firstError, Nat.not_le.mpr ha, hb, Nat.not_lt.mpr hb]
  · simp [firstError, ha, Nat.not_lt.mpr ha]

/-- MONTMUL makes FMUL's checks. -/
theorem firstError_montmul : firstError (.montmul rd ra rb) s =
    if Canonical (s.reg ra) ∧ Canonical (s.reg rb) then .none else .nonCanonical := firstError_fmul rd ra rb s

/-- NonCanonical is checked before zero (R107). -/
theorem firstError_finv : firstError (.finv rd ra) s =
    if Canonical (s.reg ra) then if (s.reg ra).toNat = 0 then .divisionByZero else .none else .nonCanonical := by
  rcases Nat.lt_or_ge (s.reg ra).toNat Config.p with ha | ha
  · have hz : s.reg ra = 0#256 ↔ (s.reg ra).toNat = 0 := by rw [← BitVec.toNat_inj]; rfl
    by_cases h0 : s.reg ra = 0#256
    · simp [firstError, h0, p_pos, p_pos.ne']
    · simp [firstError, Nat.not_le.mpr ha, ha, h0, mt hz.mpr h0]
  · simp [firstError, ha, Nat.not_lt.mpr ha]

theorem firstError_fsqrt : firstError (.fsqrt rd ra) s =
    if Canonical (s.reg ra) then .none else .nonCanonical := by
  rcases Nat.lt_or_ge (s.reg ra).toNat Config.p with ha | ha
  · simp [firstError, Nat.not_le.mpr ha, ha]
  · simp [firstError, ha, Nat.not_lt.mpr ha]

/-- The length check of B2F comes before its bounds check (R171). -/
theorem firstError_b2f (len : BitVec 6) (off : BitVec 14) : firstError (.b2f rd len off) s =
    if 48 < len.toNat then .illegal else if 8192 < off.toNat + len.toNat then .bounds else .none := by
  by_cases hl : 48 < len.toNat
  · simp [firstError, hl]
  · by_cases ho : 8192 < off.toNat + len.toNat
    · simp [firstError, hl, ho]
    · simp [firstError, hl, ho]

end

/-- The answer of the checks that raise this error, or none. -/
def ErrCode.answer : ErrCode → Except ErrCode Unit
  | .none => .ok ()
  | e => .error e

theorem ErrCode.answer_of_ne_none {e : ErrCode} (h : e ≠ .none) : e.answer = .error e := by
  cases e with
  | none => exact absurd rfl h
  | _ => rfl

/-- XMD's checks are those of an expansion of `n` bytes, in the order of R146; the last one, `n > 8192`, never decides. -/
theorem checkExpansion_eq_firstError_xmd (n : BitVec 16) (s : State) :
    s.checkExpansion n.toNat = (firstError (.xmd n) s).answer := by
  rw [State.checkExpansion_eq]
  split
  · simp [firstError, ErrCode.answer, *]
  · split
    · simp [firstError, ErrCode.answer, *]
    · split
      · simp [firstError, ErrCode.answer, *]
      · simp [firstError, ErrCode.answer, *, show ¬ 8192 < n.toNat by omega]

/-- H2F's checks are those of an expansion of 96 bytes, of which those on the output's length pass (R170). -/
theorem checkExpansion_eq_firstError_h2f (rd rd2 : Reg) (s : State) :
    s.checkExpansion 96 = (firstError (.h2f rd rd2) s).answer := by
  rw [State.checkExpansion_eq]
  split
  · simp [firstError, ErrCode.answer, *]
  · split
    · simp [firstError, ErrCode.answer, *]
    · simp [firstError, ErrCode.answer, *]

/-! ### The outcome of a command, by its first error -/

/-- How a command ends whose first error is `e`: with the state its rule computes, or with that error (R214, R215). -/
def outcomeOf (e : ErrCode) (i : Instr) (s : State) : Host.Outcome State Fault Refusal :=
  if e = .none then .next (computed i s).completeOk else .next (s.completeError e)

/-- Every command ends as its first error says. -/
theorem exec_eq_outcomeOf_firstError (i : Instr) (s : State) : exec i s = outcomeOf (firstError i s) i s := by
  cases i with
  | fmul rd ra rb =>
    rw [firstError_fmul]
    split
    case isTrue h => exact execFmul_ok rd h.1 h.2
    case isFalse h => exact execFmul_error rd (not_and_or.mp h)
  | montmul rd ra rb =>
    rw [firstError_montmul]
    split
    case isTrue h => exact execMontmul_ok rd h.1 h.2
    case isFalse h => exact execMontmul_error rd (not_and_or.mp h)
  | modpow rd ra rb => exact execModpow_ok rd ra rb s
  | finv rd ra =>
    rw [firstError_finv]
    split
    case isTrue h =>
      split
      case isTrue h0 => exact execFinv_zero rd h0
      case isFalse h0 => exact execFinv_ok rd h h0
    case isFalse h => exact execFinv_error rd h
  | fsqrt rd ra =>
    rw [firstError_fsqrt]
    split
    case isTrue h => exact execFsqrt_ok rd h
    case isFalse h => exact execFsqrt_error rd h
  | fred rd ra => exact execFred_ok rd ra s
  | frand rd => exact frandWith_ok _ rd s
  | xmd n =>
    have hc := checkExpansion_eq_firstError_xmd n s
    rw [outcomeOf]
    split
    case isTrue h => exact execXmd_ok (by rw [hc, h, ErrCode.answer])
    case isFalse h => exact execXmd_error (hc.trans (ErrCode.answer_of_ne_none h))
  | h2f rd rd2 =>
    have hc := checkExpansion_eq_firstError_h2f rd rd2 s
    rw [outcomeOf]
    split
    case isTrue h => exact execH2f_ok rd rd2 (by rw [hc, h, ErrCode.answer])
    case isFalse h => exact execH2f_error rd rd2 (hc.trans (ErrCode.answer_of_ne_none h))
  | b2f rd len off =>
    rw [firstError_b2f]
    split
    case isTrue hl => exact execB2f_illegal rd off hl
    case isFalse hl =>
      split
      case isTrue ho => exact execB2f_bounds rd (Nat.not_lt.mp hl) ho
      case isFalse ho => exact execB2f_ok rd (Nat.not_lt.mp hl) (Nat.not_lt.mp ho)

/-- A command with no error to report does what its rule computes. -/
theorem exec_of_firstError_none {i : Instr} {s : State} (h : firstError i s = .none) :
    exec i s = .next (computed i s).completeOk := by
  rw [exec_eq_outcomeOf_firstError, outcomeOf, if_pos h]

/-- A command with an error to report is error-completed with it. -/
theorem exec_of_firstError_ne_none {i : Instr} {s : State} (h : firstError i s ≠ .none) :
    exec i s = .next (s.completeError (firstError i s)) := by
  rw [exec_eq_outcomeOf_firstError, outcomeOf, if_neg h]

/-- No rule writes ERRSEEN (R215). -/
theorem computed_errSeen (i : Instr) (s : State) : (computed i s).errSeen = s.errSeen := by
  cases i <;> rfl

/-- No rule writes CTRL. -/
theorem computed_ie (i : Instr) (s : State) : (computed i s).ie = s.ie := by
  cases i <;> rfl

theorem succeeded_computed (i : Instr) (s : State) : Succeeded s (computed i s).completeOk where
  done := rfl
  lastErr := rfl
  inflight := rfl
  errSeen := computed_errSeen i s

/-- Every completion leaves DONE at 1 and CTRL.IE as it was (R214, R215). -/
theorem exec_done_ie {i : Instr} {s t : State} (h : exec i s = .next t) : t.done = true ∧ t.ie = s.ie := by
  rcases exec_next_cases h with rfl | ⟨e, -, rfl⟩
  · exact ⟨rfl, computed_ie i s⟩
  · exact ⟨rfl, rfl⟩

end Sys2Proof.Machine
end

section
/-! SUPPORT. Acceptance of a command word (spec/60_exceptions.md R216): the access that starts a command, the step that takes
it, and the step that completes the word once nothing more reaches the block. Then the bits behind `irq` (R218). -/

namespace Sys2Proof.Machine

/-! ### The write of CMD -/

@[simp] theorem State.writeWord_cmd (s : State) (w : Word) : s.writeWord 0x000C#14 w = s.accept w := by
  simp [State.writeWord]

/-- Performing a CMD write accepts its word. -/
theorem State.perform_writeAt_cmd (s : State) (w : Word) :
    s.perform (.writeAt 0x000C#14 w) = (s.accept w).respond (.writeAt 0x000C#14 w) .done := by
  have hv : (Access.writeAt 0x000C#14 w).valid = true := by
    simp [Access.valid_iff, Access.writeAt]
  rw [State.perform_write hv rfl, Access.writeAt, State.writeWord_cmd]

/-- With no command in flight and no access held, the host's access is performed in its own step. -/
theorem step_access_idle {s : State} {a : Access} {rest : List Event} (hi : s.inflight = none) (hh : s.held = none)
    (ha : s.agenda = .access a :: rest) : step s = .next (State.perform { s with agenda := rest } a) := by
  have ht : s.turn = .perform a := by simp [State.turn_of_access ha hh, hi]
  simp only [step, ht, State.dropEvent_of_agenda ha]

/-- Only a write in the range of CMD puts a word in flight, and it is the word written. -/
theorem State.writeWord_inflight (s : State) (off : BitVec 14) (v : Word) :
    (s.writeWord off v).inflight = s.inflight ∨
    (regionOf off = .cmd ∧ (s.writeWord off v).inflight = some v) := by
  unfold State.writeWord
  split
  case h_4 h => exact .inr ⟨h, rfl⟩
  all_goals exact .inl rfl

/-- An access that puts a word in flight is a write of that word to CMD. -/
theorem State.cmd_write_of_perform {s : State} {a : Access} {w : Word} (hi : s.inflight = none)
    (h : (s.perform a).inflight = some w) : a.op = .write w ∧ a.off = 0x000C#14 := by
  cases hv : a.valid with
  | false => simp [State.perform_invalid hv, hi] at h
  | true =>
    cases ho : a.op with
    | read => simp [State.perform_read hv ho, hi] at h
    | write v =>
      rw [State.perform_write hv ho, State.respond_inflight] at h
      obtain ⟨h4, -, -, -⟩ := (Access.valid_iff a).mp hv
      rcases s.writeWord_inflight a.off v with hs | ⟨hr, hs⟩
      · simp [hs, hi] at h
      · obtain rfl : v = w := Option.some.inj (hs.symm.trans h)
        exact ⟨rfl, eq_cmd_of_regionOf h4 hr⟩

/-! ### The completion, when nothing more reaches the block (R250) -/

section
variable {s : State} {w : Word} (hi : s.inflight = some w) (hg : s.hung = none) (ha : s.agenda = [])
include hi hg ha

theorem step_last_completion : step s = runCommand w s := by
  have ht : s.turn = .run w := by simp [State.turn_of_inflight hi hg, State.turnBusy, ha]
  simp only [step, ht]

theorem step_last_completion_ok {i : Instr} (hd : decode w = .ok i) : step s = exec i s := by
  rw [step_last_completion hi hg ha, runCommand_ok hd]
  simp [State.dropCompletion, ha]

theorem step_last_completion_error {e : DecodeError} (hd : decode w = .error e) :
    step s = .next (s.completeError .illegal) := by
  rw [step_last_completion hi hg ha, runCommand_error hd]
  simp [State.dropCompletion, ha]

end

/-! ### The bits of CTRL and STATUS (R27, R28) -/

theorem State.ctrlWord_ie (s : State) : s.ctrlWord.getLsbD 0 = s.ie := by
  rw [← BitVec.testBit_toNat, State.toNat_ctrlWord]
  cases s.ie <;> rfl

theorem State.statusWord_busy (s : State) : s.statusWord.getLsbD 0 = s.busy := by
  rw [← BitVec.testBit_toNat, State.toNat_statusWord, Nat.testBit_eq_decide_div_mod_eq]
  cases s.busy <;> simp <;> omega

theorem State.statusWord_done (s : State) : s.statusWord.getLsbD 2 = s.done := by
  rw [← BitVec.testBit_toNat, State.toNat_statusWord, Nat.testBit_eq_decide_div_mod_eq]
  have hb := s.busy.toNat_le
  have hf := s.found.toNat_le
  cases s.done <;> simp <;> omega

end Sys2Proof.Machine
end

section
/-! CERTIFICATES. The statements about acceptance, errors and the interrupt (spec/60_exceptions.md). -/

namespace Sys2Proof.Proofs

open Sys2Proof.Machine Sys2Proof.Safety

/-- Settles O9: the access is performed, which accepts the word; the next step decodes and completes it. -/
theorem cmdWriteAcceptsCommand : Obligations.CmdWriteAcceptsCommand := by
  unfold Obligations.CmdWriteAcceptsCommand
  intro s w rest hi hh ha
  refine ⟨_, ?_, rfl, ?_, fun i hd hr => ?_, fun e hd hr => ?_⟩
  · rw [step_access_idle hi hh ha, State.perform_writeAt_cmd]
    rfl
  · rw [State.readWord_status, State.statusWord_busy]
    rfl
  · exact step_last_completion_ok rfl rfl hr hd
  · exact step_last_completion_error rfl rfl hr hd

/-- Settles O11: a command ends as its first error says, and an illegal word runs no rule. -/
theorem commandReportsFirstError : Obligations.CommandReportsFirstError := by
  unfold Obligations.CommandReportsFirstError
  exact ⟨fun w e s hd => runCommand_error hd s, fun i s => ⟨exec_of_firstError_ne_none,
    fun h => ⟨_, exec_of_firstError_none h, succeeded_computed i s⟩⟩⟩

/-- Settles O50: every completion sets DONE and leaves IE, and each of the two writes clears one factor of `irq`. -/
theorem irqIsEnabledDone : Obligations.IrqIsEnabledDone := by
  unfold Obligations.IrqIsEnabledDone
  refine ⟨fun s => ?_, fun i s t h => ?_, fun s v hv => ?_, fun s v hv => ?_⟩
  · rw [State.readWord_ctrl, State.readWord_status, State.ctrlWord_ie, State.statusWord_done, State.irq]
  · obtain ⟨hd, hie⟩ := exec_done_ie h
    exact ⟨hd, by rw [State.irq, hd, hie, Bool.and_true]⟩
  · rw [State.writeWord_status_eq, State.irq, State.writeStatus, hv, Bool.not_true, Bool.and_false, Bool.and_false]
  · rw [State.writeWord_ctrl]
    exact ⟨by rw [State.irq, State.writeCtrl, hv, Bool.false_and], rfl⟩

/-- Settles O51: of the turns with no command in flight only a performed or released access can put a word in flight, and
then it is a CMD write. -/
theorem onlyCmdWriteStartsWork : Obligations.OnlyCmdWriteStartsWork := by
  unfold Obligations.OnlyCmdWriteStartsWork
  refine ⟨fun s hi hh ha => ?_, fun s t w h hi hw => ?_⟩
  · have ht : s.turn = .idle := by simp [State.turn_of_idle hi, State.turnIdle, ha, hh]
    simp only [step, ht]
  · have hn : s.inflight ≠ some w := hi ▸ nofun
    rcases step_cases h with ⟨p, -, rfl⟩ | ⟨_, -, rfl⟩ | ⟨w', ht, -⟩ | ⟨a, ht, rfl⟩ | ⟨_, -, rfl⟩ | ⟨a, ht, rfl⟩ |
      ⟨-, rfl⟩ | ⟨-, rfl⟩
    · exact absurd hw nofun
    · exact absurd hw hn
    · exact absurd (hi.symm.trans (State.turn_run ht).1) nofun
    · exact ⟨a, .inr ht, State.cmd_write_of_perform (s := { s with held := none }) hi hw⟩
    · exact absurd hw hn
    · exact ⟨a, .inl ht, State.cmd_write_of_perform (s := s.dropEvent) hi hw⟩
    · exact absurd hw hn
    · exact absurd hw hn

end Sys2Proof.Proofs
end

section
/-! CERTIFICATES. The statements about reset (spec/70_reset_and_hazards.md). -/

namespace Sys2Proof.Proofs

open Sys2Proof.Machine

/-- Settles O53: a read of each control register gives its own field or word, which `State.reset` fixes as R240 says. -/
theorem resetStateControlValues : Obligations.ResetStateControlValues := by
  unfold Obligations.ResetStateControlValues
  rw [State.readWord_id, State.readWord_ctrl, State.readWord_status, State.readWord_cmd, State.readWord_dstLen,
    State.readWord_msgLen]
  have hctrl : State.reset.ctrlWord = 0#32 := by decide
  have hstatus : State.reset.statusWord = 0#32 := by decide
  exact ⟨rfl, hctrl, hstatus, rfl, rfl, rfl, rfl, rfl⟩

end Sys2Proof.Proofs
end

section
/-! SUPPORT. Encoding and decoding undo each other, format by format (spec/30_encoding.md R80 to R89). -/

namespace Sys2Proof

open Sys2Proof.Safety

/-! ### The word the encoder makes -/

/-- The encoder's Format R is the word of these field values. -/
theorem formatR_eq_formatRWord {op : Nat} (hop : op < 2 ^ 8) (rd ra rb : Reg) :
    formatR (BitVec.ofNat 8 op) (regBits rd) (regBits ra) (regBits rb) = formatRWord op rd ra rb := by
  rw [← BitVec.toNat_inj, toNat_formatR, toNat_formatRWord hop, BitVec.toNat_ofNat, Nat.mod_eq_of_lt hop]
  rfl

/-- What the word of these field values decodes to, the encoder's Format R decodes to. -/
theorem decode_formatR {op : Nat} (hop : op < 2 ^ 8) {rd ra rb : Reg} {i : Instr}
    (h : decode (formatRWord op rd ra rb) = .ok i) :
    decode (formatR (BitVec.ofNat 8 op) (regBits rd) (regBits ra) (regBits rb)) = .ok i := by
  rwa [formatR_eq_formatRWord hop]

/-- Decoding what the encoder makes of a well-formed command gives the command. -/
theorem decode_encode {i : Instr} (h : i.wellFormed = true) : decode (encode i) = .ok i := by
  cases i with
  | fmul rd ra rb => exact decode_formatR (by decide) (decode_formatRWord_fmul rd ra rb)
  | montmul rd ra rb => exact decode_formatR (by decide) (decode_formatRWord_montmul rd ra rb)
  | modpow rd ra rb => exact decode_formatR (by decide) (decode_formatRWord_modpow rd ra rb)
  | finv rd ra => exact decode_formatR (by decide) (decode_formatRWord_finv rd ra)
  | fsqrt rd ra => exact decode_formatR (by decide) (decode_formatRWord_fsqrt rd ra)
  | fred rd ra => exact decode_formatR (by decide) (decode_formatRWord_fred rd ra)
  | frand rd => exact decode_formatR (by decide) (decode_formatRWord_frand rd)
  | xmd n => exact Machine.decode_of_xmd_fields (toNat_formatX _ n)
  | h2f rd rd2 => exact decode_formatR (by decide) (Machine.decode_formatRWord_h2f rd rd2)
  | b2f rd len off => exact Machine.decode_of_b2f_fields (of_decide_eq_true h) (toNat_formatB _ _ len off)

/-! ### The word a command was decoded from -/

/-- A row's must-be-zero check that passes gives the row's command, and says that the field's number is zero. -/
theorem ifZero_ok_iff (w : Word) (lo size : Nat) (i j : Instr) :
    ifZero w lo size i = .ok j ↔ w.toNat / 2 ^ lo % 2 ^ size = 0 ∧ i = j := by
  rw [← extract_eq_zero_iff, ifZero]
  split <;> simp_all

section
variable {w : Word} {op : BitVec 8} (ho : (opcodeOf w).toNat = op.toNat)
include ho

/-- A Format R word with three registers is its opcode and its fields (R81). -/
theorem formatR_of_fields_three (hz : w.toNat / 2 ^ 0 % 2 ^ 12 = 0) :
    formatR op (regBits (rdOf w)) (regBits (raOf w)) (regBits (rbOf w)) = w := by
  have hw := w.isLt
  rw [← BitVec.toNat_inj, toNat_formatR, ← ho, toNat_opcodeOf, toNat_regBits, toNat_regBits, toNat_regBits, val_rdOf,
    val_raOf, val_rbOf]
  omega

/-- A Format R word with two registers is its opcode and its fields (R81, R89). -/
theorem formatR_of_fields_two (hz : w.toNat / 2 ^ 0 % 2 ^ 16 = 0) :
    formatR op (regBits (rdOf w)) (regBits (raOf w)) 0#4 = w := by
  have hw := w.isLt
  rw [← BitVec.toNat_inj, toNat_formatR, ← ho, toNat_opcodeOf, toNat_regBits, toNat_regBits, val_rdOf, val_raOf,
    BitVec.toNat_ofNat]
  omega

/-- A Format R word with one register is its opcode and its field (R81, R89). -/
theorem formatR_of_fields_one (hz : w.toNat / 2 ^ 0 % 2 ^ 20 = 0) : formatR op (regBits (rdOf w)) 0#4 0#4 = w := by
  have hw := w.isLt
  rw [← BitVec.toNat_inj, toNat_formatR, ← ho, toNat_opcodeOf, toNat_regBits, val_rdOf, BitVec.toNat_ofNat]
  omega

/-- A Format X word is its opcode and its field (R82). -/
theorem formatX_of_fields (hz : w.toNat / 2 ^ 16 % 2 ^ 8 = 0) : formatX op (nOf w) = w := by
  have hw := w.isLt
  rw [← BitVec.toNat_inj, toNat_formatX, ← ho, toNat_opcodeOf, toNat_nOf]
  omega

/-- A Format B word is its opcode and its fields (R83). -/
theorem formatB_of_fields : formatB op (regBits (rdOf w)) (lenOf w) (offOf w) = w := by
  have hw := w.isLt
  rw [← BitVec.toNat_inj, toNat_formatB, ← ho, toNat_opcodeOf, toNat_regBits, val_rdOf, toNat_lenOf, toNat_offOf]
  omega

end

/-- A word that decodes is the encoding of a well-formed command: each row leaves no bit out. -/
theorem encode_of_decode {w : Word} {i : Instr} (h : decode w = .ok i) : i.wellFormed = true ∧ encode i = w := by
  unfold decode at h
  split at h
  case h_8 ho =>
    obtain ⟨hz, rfl⟩ := (ifZero_ok_iff _ _ _ _ _).mp h
    exact ⟨rfl, formatX_of_fields ho hz⟩
  case h_10 ho =>
    split at h
    case isTrue hl =>
      obtain rfl := Except.ok.inj h
      exact ⟨decide_eq_true hl, formatB_of_fields ho⟩
    case isFalse => simp at h
  case h_11 => simp at h
  case h_7 ho =>
    obtain ⟨hz, rfl⟩ := (ifZero_ok_iff _ _ _ _ _).mp h
    exact ⟨rfl, formatR_of_fields_one ho hz⟩
  case h_1 ho | h_2 ho | h_3 ho =>
    obtain ⟨hz, rfl⟩ := (ifZero_ok_iff _ _ _ _ _).mp h
    exact ⟨rfl, formatR_of_fields_three ho hz⟩
  case h_4 ho | h_5 ho | h_6 ho | h_9 ho =>
    obtain ⟨hz, rfl⟩ := (ifZero_ok_iff _ _ _ _ _).mp h
    exact ⟨rfl, formatR_of_fields_two ho hz⟩

end Sys2Proof
end

section
/-! CERTIFICATES. The statements about encoding and decoding together (spec/30_encoding.md). -/

namespace Sys2Proof.Proofs

/-- Settles O3: format by format, each field reader gives back the field the encoder put there. -/
theorem decodeOfEncode : Obligations.DecodeOfEncode := by
  unfold Obligations.DecodeOfEncode
  exact fun i h => decode_encode h

/-- Settles O4: row by row, the opcode, the fields and the must-be-zero bits make up the whole word. -/
theorem encodeOfDecode : Obligations.EncodeOfDecode := by
  unfold Obligations.EncodeOfDecode
  exact fun w i h => encode_of_decode h

/-- Settles O1: the encodings are computed; that the words decode is then the law of decoding an encoding. -/
theorem exampleWordsEncodeAndDecode : Obligations.ExampleWordsEncodeAndDecode := by
  unfold Obligations.ExampleWordsEncodeAndDecode
  intro c hc
  have hword : encode c.1 = c.2 ∧ c.1.wellFormed = true := by
    revert c
    simp only [List.forall_mem_cons, List.not_mem_nil, false_implies, implies_true, and_true]
    decide
  obtain ⟨he, hwf⟩ := hword
  exact ⟨he, he ▸ decode_encode hwf⟩

end Sys2Proof.Proofs
end

section
/-! SUPPORT. What a command and a command word leave of the state, the canonical form of the buffers, and what an access does
to CMD and the word in flight: the facts every invariant of a step rests on (spec/10_state.md R22, R29, R38;
spec/60_exceptions.md R214 to R216). -/

namespace Sys2Proof.Machine

open Sys2Proof.Safety

/-! ### What a command leaves -/

/-- A rule writes no control register but STATUS, and nothing of the bus side. -/
theorem computed_sameControl (i : Instr) (s : State) : SameControl s (computed i s) := by
  cases i <;> exact ⟨rfl, rfl, rfl, rfl, rfl, rfl, rfl, rfl⟩

/-- A completed command, successful or not, leaves CTRL, CMD, the lengths and the bus side. -/
theorem exec_sameControl {i : Instr} {s t : State} (h : exec i s = .next t) : SameControl s t := by
  rcases exec_next_cases h with rfl | ⟨e, -, rfl⟩
  · obtain ⟨hie, hcmd, hdst, hmsg, hheld, hhung, hagenda, hbus⟩ := computed_sameControl i s
    exact ⟨hie, hcmd, hdst, hmsg, hheld, hhung, hagenda, hbus⟩
  · exact ⟨rfl, rfl, rfl, rfl, rfl, rfl, rfl, rfl⟩

/-- A rule writes the buffers only from `OUT[0]` up, as far as the command names them (R22, R36). -/
theorem computed_byte {i : Instr} {a : Nat} (h : a < 0x2000 ∨ 0x2000 + outWritten i ≤ a) (s : State) :
    (computed i s).byte a = s.byte a := by
  cases i with
  | xmd n =>
    exact State.writeOut_byte_outside (s.logHash (s.expand n.toNat).calls) (by rwa [State.expand_out_length])
  | h2f rd rd2 =>
    exact State.writeOut_byte_outside (s.logHash (s.expand 96).calls) (by rwa [State.expand_out_length])
  | _ => rfl

/-- An expansion whose checks pass fits into OUT, so writing it keeps the buffers in canonical form. -/
theorem State.wf_writeOut_expand {s : State} {n : Nat} (hm : s.mem.wf) (hc : s.checkExpansion n = .ok ()) :
    ((s.logHash (s.expand n).calls).writeOut (s.expand n).out).mem.wf := by
  obtain ⟨-, -, hn⟩ := (s.checkExpansion_ok_iff n).mp hc
  refine State.writeOut_wf (s := s.logHash (s.expand n).calls) hm ?_
  rw [State.expand_out_length]
  exact hn.trans (by decide)

theorem checkExpansion_xmd_ok {n : BitVec 16} {s : State} (he : firstError (.xmd n) s = .none) :
    s.checkExpansion n.toNat = .ok () := by
  rw [checkExpansion_eq_firstError_xmd, he, ErrCode.answer]

theorem checkExpansion_h2f_ok {rd rd2 : Reg} {s : State} (he : firstError (.h2f rd rd2) s = .none) :
    s.checkExpansion 96 = .ok () := by
  rw [checkExpansion_eq_firstError_h2f rd rd2, he, ErrCode.answer]

/-- A rule whose checks pass keeps the buffers in canonical form. -/
theorem computed_wf {i : Instr} {s : State} (hm : s.mem.wf) (he : firstError i s = .none) : (computed i s).mem.wf := by
  cases i with
  | xmd n => exact State.wf_writeOut_expand hm (checkExpansion_xmd_ok he)
  | h2f rd rd2 => exact State.wf_writeOut_expand hm (checkExpansion_h2f_ok he)
  | _ => exact hm

theorem exec_wf {i : Instr} {s t : State} (hm : s.mem.wf) (h : exec i s = .next t) : t.mem.wf := by
  by_cases he : firstError i s = .none
  · obtain rfl := Host.Outcome.next.inj ((exec_of_firstError_none he).symm.trans h)
    exact computed_wf hm he
  · obtain rfl := Host.Outcome.next.inj ((exec_of_firstError_ne_none he).symm.trans h)
    exact hm

/-! ### What running a command word leaves -/

/-- How STATUS and the word in flight stand after a completion, successful or with an error (R214, R215). -/
structure Completed (s t : State) : Prop where
  inflight : t.inflight = none
  done     : t.done = true
  outcome  : (t.lastErr = .none ∧ t.errSeen = s.errSeen) ∨ (t.lastErr ≠ .none ∧ t.errSeen = true)

theorem completed_completeError (s : State) {e : ErrCode} (he : e ≠ .none) : Completed s (s.completeError e) :=
  ⟨rfl, rfl, .inr ⟨he, rfl⟩⟩

theorem exec_completed {i : Instr} {s t : State} (h : exec i s = .next t) : Completed s t := by
  rcases exec_next_cases h with rfl | ⟨e, he, rfl⟩
  · exact ⟨rfl, rfl, .inl ⟨rfl, computed_errSeen i s⟩⟩
  · exact completed_completeError s he

/-- Running a command word is a command, or the error completion of an illegal word, on the state without the event that
called for the completion. -/
theorem runCommand_next_cases {w : Word} {s t : State} (h : runCommand w s = .next t) :
    (∃ i, decode w = .ok i ∧ exec i s.dropCompletion = .next t) ∨ t = s.dropCompletion.completeError .illegal := by
  cases hw : decode w with
  | ok i => exact .inl ⟨i, rfl, (runCommand_ok hw s).symm.trans h⟩
  | error e => exact .inr (Host.Outcome.next.inj ((runCommand_error hw s).symm.trans h)).symm

/-- Every command word, legal or not, completes. -/
theorem runCommand_next (w : Word) (s : State) : ∃ t, runCommand w s = .next t := by
  cases hw : decode w with
  | ok i =>
    rw [runCommand_ok hw]
    rcases exec_ok_or_error i s.dropCompletion with hx | ⟨e, -, hx⟩
    · exact ⟨_, hx⟩
    · exact ⟨_, hx⟩
  | error e => exact ⟨_, runCommand_error hw s⟩

section
variable {w : Word} {s t : State} (h : runCommand w s = .next t)
include h

theorem runCommand_completed : Completed s t := by
  rcases runCommand_next_cases h with ⟨i, -, hx⟩ | rfl
  · obtain ⟨hi, hd, ho⟩ := exec_completed hx
    exact ⟨hi, hd, by rwa [State.dropCompletion_errSeen] at ho⟩
  · exact ⟨rfl, rfl, .inr ⟨nofun, rfl⟩⟩

theorem runCommand_sameControl : SameControl s.dropCompletion t := by
  rcases runCommand_next_cases h with ⟨i, -, hx⟩ | rfl
  · exact exec_sameControl hx
  · exact ⟨rfl, rfl, rfl, rfl, rfl, rfl, rfl, rfl⟩

theorem runCommand_wf (hm : s.mem.wf) : t.mem.wf := by
  have hm' : s.dropCompletion.mem.wf := by rwa [State.dropCompletion_mem]
  rcases runCommand_next_cases h with ⟨i, -, hx⟩ | rfl
  · exact exec_wf hm' hx
  · exact hm'

end

/-! ### What an access does to the word in flight -/

/-- A write accepts its word (R29, R216), or leaves CMD, the word in flight and what it waits on alone. -/
theorem State.writeWord_command (s : State) (off : BitVec 14) (v : Word) :
    ((s.writeWord off v).cmd = s.cmd ∧ (s.writeWord off v).inflight = s.inflight ∧
      (s.writeWord off v).hung = s.hung) ∨ s.writeWord off v = s.accept v := by
  unfold State.writeWord
  split
  case h_4 => exact .inr rfl
  all_goals exact .inl ⟨rfl, rfl, rfl⟩

/-- An access accepts a command word, or leaves CMD, the word in flight and what it waits on alone. -/
theorem State.perform_command (s : State) (a : Access) :
    ((s.perform a).cmd = s.cmd ∧ (s.perform a).inflight = s.inflight ∧ (s.perform a).hung = s.hung) ∨
    ∃ w, s.perform a = (s.accept w).respond a .done := by
  cases hv : a.valid with
  | false => exact .inl (by rw [State.perform_invalid hv]; exact ⟨rfl, rfl, rfl⟩)
  | true =>
    cases ho : a.op with
    | read => exact .inl (by rw [State.perform_read hv ho]; exact ⟨rfl, rfl, rfl⟩)
    | write v =>
      rw [State.perform_write hv ho]
      exact (s.writeWord_command a.off v).imp_right fun h => ⟨v, by rw [h]⟩

end Sys2Proof.Machine
end

section
/-! SUPPORT. The invariant of the block (spec/10_state.md R38; spec/20_memory.md R58, R61; spec/70_reset_and_hazards.md R250),
turn by turn. -/

namespace Sys2Proof.Machine

open Sys2Proof.Safety

/-- The invariant speaks of the buffers, CMD, the word in flight, the held access and the silent port alone. -/
theorem inv_congr {s t : State} (hs : Inv s) (hm : t.mem.wf) (hc : t.cmd = s.cmd) (hi : t.inflight = s.inflight)
    (hh : t.held = s.held) (hg : t.hung = s.hung) : Inv t where
  buffers := hm
  inflight := by rw [hi, hc]; exact hs.inflight
  held := by rw [hh]; exact hs.held
  hung := by rw [hg, hi]; exact hs.hung

theorem inv_reset : Inv State.reset := ⟨Memory.wf_nil, nofun, nofun, nofun⟩

/-- A completion keeps the invariant: nothing is left in flight. -/
theorem inv_runCommand {s t : State} {w : Word} (hs : Inv s) (hg : s.hung = none) (h : runCommand w s = .next t) :
    Inv t := by
  obtain ⟨hi, -, -⟩ := runCommand_completed h
  have hc := runCommand_sameControl h
  have hheld : t.held = s.held := hc.held.trans s.dropCompletion_held
  have hhung : t.hung = none := (hc.hung.trans s.dropCompletion_hung).trans hg
  exact ⟨runCommand_wf h hs.buffers, by simp [hi], by rw [hheld]; exact hs.held, by simp [hhung]⟩

/-- An access keeps the invariant: an acceptance sets CMD and the word in flight together. -/
theorem inv_perform {s : State} (hs : Inv s) (a : Access) : Inv (s.perform a) := by
  have hm := State.perform_wf hs.buffers a
  obtain ⟨r, -, hheld, -, -, -⟩ := s.perform_ports a
  rcases s.perform_command a with ⟨hc, hi, hg⟩ | ⟨w, hw⟩
  · exact inv_congr hs hm hc hi hheld hg
  · refine ⟨hm, ?_, by rw [hheld]; exact hs.held, by simp [hw]⟩
    simp [hw]

theorem inv_hold {s : State} (hs : Inv s) {a : Access} (ha : a.interlocked = true) : Inv (s.hold a) :=
  ⟨hs.buffers, hs.inflight, fun _ hb => Option.some.inj hb ▸ ha, hs.hung⟩

theorem inv_dropHeld {s : State} (hs : Inv s) : Inv { s with held := none } := ⟨hs.buffers, hs.inflight, nofun, hs.hung⟩

theorem inv_hang {s : State} (hs : Inv s) (hi : s.inflight.isSome = true) (port : Port) : Inv (s.hang port) :=
  ⟨hs.buffers, hs.inflight, hs.held, fun _ => hi⟩

theorem inv_takeReset (s : State) (pulse : ResetPulse) : Inv (s.takeReset pulse) :=
  ⟨Memory.wf_ofCells pulse.cells, nofun, nofun, nofun⟩

theorem inv_dropEvent {s : State} (hs : Inv s) : Inv s.dropEvent := inv_congr hs hs.buffers rfl rfl rfl rfl

/-- Every step keeps the invariant. -/
theorem inv_step {s t : State} (hs : Inv s) (h : step s = .next t) : Inv t := by
  have hd := inv_dropEvent hs
  rcases step_cases h with ⟨p, -, rfl⟩ | ⟨p, ht, rfl⟩ | ⟨w, ht, hr⟩ | ⟨a, -, rfl⟩ | ⟨a, ht, rfl⟩ | ⟨a, -, rfl⟩ |
    ⟨-, rfl⟩ | ⟨-, rfl⟩
  · exact inv_takeReset s.dropEvent p
  · obtain ⟨hi, -, -⟩ := State.says_of_turn ht
    exact inv_hang hd hi p
  · exact inv_runCommand hs (State.turn_run ht).2 hr
  · exact inv_perform (inv_dropHeld hs) a
  · obtain ⟨ha, -, -⟩ := State.says_of_turn ht
    exact inv_hold hd ha
  · exact inv_perform hd a
  · exact hd
  · exact hs

end Sys2Proof.Machine
end

section
/-! CERTIFICATES. The statements about the invariant (spec/10_state.md section 6, spec/70_reset_and_hazards.md). -/

namespace Sys2Proof.Proofs

open Sys2Proof.Machine

/-- Settles O54: after reset the buffers are empty and nothing is in flight, held or hung. -/
theorem resetMeetsInvariant : Obligations.ResetMeetsInvariant := by
  unfold Obligations.ResetMeetsInvariant
  exact inv_reset

/-- Settles O55: turn by turn; a completion leaves nothing in flight, an acceptance sets CMD with the word in flight, and
only an interlocked access is held. -/
theorem stepKeepsInvariant : Obligations.StepKeepsInvariant := by
  unfold Obligations.StepKeepsInvariant
  exact fun s t hs h => inv_step hs h

end Sys2Proof.Proofs
end

section
/-! SUPPORT. The step by its turn (spec/70_reset_and_hazards.md R249), and accesses that change nothing but what they name. -/

namespace Sys2Proof.Machine

open Sys2Proof.Safety

/-! ### The step that completes the word in flight -/

/-- The step whose turn is the completion runs the word. -/
theorem step_of_run {s : State} {w : Word} (h : s.turn = .run w) : step s = runCommand w s := by
  simp only [step, h]

/-- A completion that no event calls for uses up no event. -/
theorem State.dropCompletion_of_ne {s : State} (h : ∀ rest, s.agenda ≠ .complete :: rest) : s.dropCompletion = s := by
  unfold State.dropCompletion
  split
  case h_1 rest ha => exact absurd ha (h rest)
  case h_2 => rfl

theorem State.dropCompletion_of_complete {s : State} {rest : List Event} (h : s.agenda = .complete :: rest) :
    s.dropCompletion = { s with agenda := rest } := by
  simp [State.dropCompletion, h]

section
variable {s : State} {w : Word} {rest : List Event} (hi : s.inflight = some w) (hg : s.hung = none)
include hi hg

/-- An event that calls for the completion brings it (R215). -/
theorem turn_complete (ha : s.agenda = .complete :: rest) : s.turn = .run w := by
  simp [State.turn_of_inflight hi hg, State.turnBusy, ha]

/-- A held access waits for the completion, so the completion comes before the next access (R61, R63). -/
theorem turn_access_held {a h : Access} (ha : s.agenda = .access a :: rest) (hh : s.held = some h) :
    s.turn = .run w := by
  simp [State.turn_of_inflight hi hg, State.turnBusy, ha, hh]

end

/-! ### The step that releases the held access -/

/-- With nothing in flight and nothing more to come, the held access is performed (R61). -/
theorem step_release {s : State} {a : Access} (hi : s.inflight = none) (hh : s.held = some a) (ha : s.agenda = []) :
    step s = .next (State.perform { s with held := none } a) := by
  have ht : s.turn = .release a := by simp [State.turn_of_idle hi, State.turnIdle, ha, hh]
  simp only [step, ht, State.release]

/-! ### The step of a reset pulse -/

/-- A reset pulse that comes next is taken, whatever the block is doing (R213, R242). -/
theorem step_reset {s : State} {pulse : ResetPulse} {rest : List Event} (ha : s.agenda = .reset pulse :: rest) :
    step s = .next (State.takeReset { s with agenda := rest } pulse) := by
  have ht : s.turn = .reset pulse := by
    cases hi : s.inflight <;> cases hg : s.hung <;>
      simp [State.turn, State.turnBusy, State.turnHung, State.turnIdle, hi, hg, ha]
  simp only [step, ht, State.dropEvent_of_agenda ha]

/-! ### Several steps -/

/-- A run whose first step answers a next state goes on from that state. -/
theorem run_of_step (M : Host.Core) {s t : M.State} (h : M.step s = .next t) (n : Nat) : M.run (n + 1) s = M.run n t := by
  simp only [Host.Core.run, h]

/-- The same of the block's own step. -/
theorem run_succ {s t : State} (h : step s = .next t) (n : Nat) :
    Sys2Proof.core.run (n + 1) s = Sys2Proof.core.run n t := run_of_step Sys2Proof.core h n

/-! ### Good accesses -/

/-- An aligned single whole-word access to a mapped offset is valid (R55 to R57). -/
theorem Access.valid_of_mapped {a : Access} (he : a.enables = 0xF#4) (hb : a.beats = 1) (h4 : a.off.toNat % 4 = 0)
    (hm : a.off.toNat < 0x0018 ∨ (0x0200 ≤ a.off.toNat ∧ a.off.toNat < 0x0500) ∨ 0x1000 ≤ a.off.toNat) :
    a.valid = true := by
  refine (Access.valid_iff a).mpr ⟨h4, he, hb, ?_⟩
  rw [ne_eq, regionOf_eq_unmapped_iff]
  omega

/-- A write does not look at what is still to come. -/
theorem State.writeWord_agenda (s : State) (rest : List Event) (off : BitVec 14) (v : Word) :
    State.writeWord { s with agenda := rest } off v = { s.writeWord off v with agenda := rest } := by
  unfold State.writeWord
  split <;> rfl

/-- An access outside the interlocked ranges changes CTRL.IE, DONE, ERRSEEN and the record of the host bus alone, and the
two flags only downwards. -/
theorem State.perform_not_interlocked (s : State) {a : Access} (h : a.interlocked = false) :
    ∃ ie done errSeen log, s.perform a = { s with ie := ie, done := done, errSeen := errSeen, busLog := log } ∧
      (done = true → s.done = true) ∧ (errSeen = true → s.errSeen = true) := by
  cases hv : a.valid with
  | false => exact ⟨_, _, _, _, State.perform_invalid hv, id, id⟩
  | true =>
    cases ho : a.op with
    | read => exact ⟨_, _, _, _, State.perform_read hv ho, id, id⟩
    | write v =>
      have hr : (regionOf a.off).interlocked = false := by simpa [Access.interlocked, hv] using h
      obtain ⟨ie, done, errSeen, hw, hd, he⟩ := State.writeWord_not_interlocked (s := s) (v := v) hr
      exact ⟨ie, done, errSeen, _, by rw [State.perform_write hv ho, hw, State.respond], hd, he⟩

end Sys2Proof.Machine
end

section
/-! CERTIFICATES. The statements about single steps: what a placed or due command does, when it is held up, and what a step
leaves alone (spec/20_memory.md, spec/60_exceptions.md, spec/70_reset_and_hazards.md). -/

namespace Sys2Proof.Proofs

open Sys2Proof.Machine Sys2Proof.Safety

/-- Settles O7: in each of the three placings the completion is due, and an event that called for it is used up. -/
theorem stepRunsDecodedCommand : Obligations.StepRunsDecodedCommand := by
  unfold Obligations.StepRunsDecodedCommand
  intro s w i hi hg hd
  refine ⟨fun ha => step_last_completion_ok hi hg ha hd, fun rest ha => ?_, fun a rest h ha hh => ?_⟩
  · rw [step_of_run (turn_complete hi hg ha), runCommand_ok hd, State.dropCompletion_of_complete ha]
  · rw [step_of_run (turn_access_held hi hg ha hh), runCommand_ok hd, State.dropCompletion_of_ne (by simp [ha])]

/-- Settles O8: the placed word is the encoding, and decoding it gives the command back. -/
theorem placedCommandRunsNext : Obligations.PlacedCommandRunsNext := by
  unfold Obligations.PlacedCommandRunsNext
  intro s i hwf
  have hw : BitVec.ofNat 32 ((encode i).toNat % 2 ^ 32) = encode i := by
    rw [Nat.mod_eq_of_lt (encode i).isLt, BitVec.ofNat_toNat, BitVec.setWidth_eq]
  rw [State.withFetchWord, hw, step_withCommand, runCommand_ok (decode_encode hwf), State.withCommand_dropCompletion]

/-- Settles O10: the completion is the only thing left to happen, and every word completes. -/
theorem inflightCommandCompletes : Obligations.InflightCommandCompletes := by
  unfold Obligations.InflightCommandCompletes
  intro s w hi hg ha
  obtain ⟨t, ht⟩ := runCommand_next w s
  obtain ⟨hnone, hdone, hout⟩ := runCommand_completed ht
  exact ⟨t, (step_last_completion hi hg ha).trans ht, hnone, hdone, hout⟩

/-- Settles O39: the access is valid, so performing it answers with the word read, or acknowledges the write. -/
theorem mappedAccessCompletes : Obligations.MappedAccessCompletes := by
  unfold Obligations.MappedAccessCompletes
  intro s off rest hh hi h4 hm
  refine ⟨fun ha => ?_, fun v ha => ?_⟩
  · rw [step_access_idle hi hh ha, State.perform_read (Access.valid_of_mapped rfl rfl h4 hm) rfl]
    rfl
  · obtain ⟨-, -, hbus, -, -⟩ := s.writeWord_ports off v
    rw [step_access_idle hi hh ha, State.perform_write (Access.valid_of_mapped rfl rfl h4 hm) rfl, State.respond, Access.writeAt,
      State.writeWord_agenda, hbus]

/-- Settles O44: the access is held, the command completes without touching what is held or recorded, and the access is
then released. -/
theorem heldAccessSeesCompletion : Obligations.HeldAccessSeesCompletion := by
  unfold Obligations.HeldAccessSeesCompletion
  intro s t w i a hi hg hd hh ha hl hx
  have hhold := step_access_held hh ha hl (by rw [hi]; rfl)
  have hrun : step { s with agenda := [], held := some a } = .next t :=
    (step_last_completion_ok (s := { s with agenda := [], held := some a }) hi hg rfl hd).trans hx
  have hc := exec_sameControl hx
  have hrel := step_release (exec_completed hx).inflight hc.held hc.agenda
  refine ⟨hhold, ?_, hc.held, hc.busLog, ?_⟩
  · rw [run_succ hhold, run_succ hrun]
    rfl
  · rw [run_succ hhold, run_succ hrun, run_succ hrel]
    rfl

/-- Settles O46: with a word in flight the reset and the completion leave none, and every other turn changes the record of
the bus at most, or performs an access outside the interlocked ranges. -/
theorem busyFreezesTheState : Obligations.BusyFreezesTheState := by
  unfold Obligations.BusyFreezesTheState
  intro s t w hi h ht
  rcases step_cases h with ⟨p, -, rfl⟩ | ⟨p, -, rfl⟩ | ⟨w', -, hr⟩ | ⟨a, hu, -⟩ | ⟨a, -, rfl⟩ | ⟨a, hu, rfl⟩ |
    ⟨-, rfl⟩ | ⟨-, rfl⟩
  · exact absurd ht nofun
  · exact ⟨rfl, rfl, rfl, rfl, rfl, rfl, rfl, rfl, rfl, id, id⟩
  · exact absurd ((runCommand_completed hr).inflight.symm.trans ht) nofun
  · exact absurd ((State.turn_release hu).1.symm.trans hi) nofun
  · exact ⟨rfl, rfl, rfl, rfl, rfl, rfl, rfl, rfl, rfl, id, id⟩
  · have hl := (State.turn_perform hu).resolve_left (by simp [hi])
    obtain ⟨_, _, _, _, hp, hdone, herr⟩ := s.dropEvent.perform_not_interlocked hl
    rw [hp]
    exact ⟨rfl, rfl, rfl, rfl, rfl, rfl, rfl, rfl, rfl, hdone, herr⟩
  · exact ⟨rfl, rfl, rfl, rfl, rfl, rfl, rfl, rfl, rfl, id, id⟩
  · exact ⟨rfl, rfl, rfl, rfl, rfl, rfl, rfl, rfl, rfl, id, id⟩

/-- Settles O49: the clear is performed at once, and the completion after it sets DONE, and ERRSEEN on an error. -/
theorem completionWinsOverClear : Obligations.CompletionWinsOverClear := by
  unfold Obligations.CompletionWinsOverClear
  intro s w v rest hi hg hh ha
  have hl : (Access.writeAt 0x0008#14 v).interlocked = false :=
    Access.not_interlocked_of_lt (show (0x0008#14).toNat < 0x000C by decide)
  obtain ⟨u, hclear, hui, hug, hua⟩ : ∃ u, step s = .next u ∧ u.inflight = some w ∧ u.hung = none ∧
      u.agenda = .complete :: rest := by
    obtain ⟨_, _, _, _, hp, -, -⟩ := State.perform_not_interlocked { s with agenda := .complete :: rest } hl
    exact ⟨_, (step_access_not_interlocked hh ha hl).trans (congrArg Host.Outcome.next hp), hi, hg, rfl⟩
  obtain ⟨t, ht⟩ := runCommand_next w u
  have hrun := (step_of_run (turn_complete hui hug hua)).trans ht
  obtain ⟨-, hdone, hout⟩ := runCommand_completed ht
  refine ⟨t, by rw [run_succ hclear, run_succ hrun]; rfl, hdone, fun hne => ?_⟩
  exact (hout.resolve_left fun ho => hne ho.1).2

/-- Settles O52: whatever the block is doing, the pulse is taken, and it writes every control register. -/
theorem resetPulseFromAnyState : Obligations.ResetPulseFromAnyState := by
  unfold Obligations.ResetPulseFromAnyState
  intro s pulse rest ha
  refine ⟨_, step_reset ha, State.readWord_id _, rfl, ?_, rfl, rfl, rfl, rfl, rfl, fun _ => rfl, rfl, rfl, rfl, rfl, rfl,
    rfl⟩
  have hstatus : State.reset.statusWord = 0#32 := by decide
  exact (State.readWord_status _).trans hstatus

end Sys2Proof.Proofs
end

section
/-! SUPPORT. The port transactions of a command by its first error (spec/41_message_expansion.md R143; R112), what an expansion
reads, and the bytes of a field register in offset order (spec/20_memory.md R52, R54). -/

namespace Sys2Proof.Machine

open Sys2Proof.Safety

/-! ### The port transactions of a command -/

theorem State.expansionCalls_ok {s : State} {n : Nat} (h : s.checkExpansion n = .ok ()) :
    s.expansionCalls n = (s.expand n).calls.map .hash := by
  simp [State.expansionCalls, h]

theorem State.expansionCalls_error {s : State} {n : Nat} {e : ErrCode} (h : s.checkExpansion n = .error e) :
    s.expansionCalls n = [] := by
  simp [State.expansionCalls, h]

/-- A rule whose checks pass logs the command's port transactions. -/
theorem computed_portLog {i : Instr} {s : State} (he : firstError i s = .none) :
    (computed i s).portLog = s.portLog ++ s.portCalls i := by
  cases i with
  | frand rd => rfl
  | xmd n => exact congrArg (s.portLog ++ ·) (State.expansionCalls_ok (checkExpansion_xmd_ok he)).symm
  | h2f rd rd2 => exact congrArg (s.portLog ++ ·) (State.expansionCalls_ok (checkExpansion_h2f_ok he)).symm
  | _ => exact (List.append_nil _).symm

/-- A command that has an error to report makes no port transaction (R214). -/
theorem portCalls_of_firstError_ne_none {i : Instr} {s : State} (he : firstError i s ≠ .none) : s.portCalls i = [] := by
  cases i with
  | frand rd => exact absurd rfl he
  | xmd n =>
    exact State.expansionCalls_error ((checkExpansion_eq_firstError_xmd n s).trans (ErrCode.answer_of_ne_none he))
  | h2f rd rd2 =>
    exact State.expansionCalls_error
      ((checkExpansion_eq_firstError_h2f rd rd2 s).trans (ErrCode.answer_of_ne_none he))
  | _ => rfl

/-! ### Commands that wait on a port -/

/-- An expansion whose checks pass calls the hash, and no other port. -/
theorem expansionCalls_any_port {s : State} {n : Nat} (h : s.checkExpansion n = .ok ()) (port : Port) :
    (s.expansionCalls n).any (fun c => c.port == port) = true ↔ some Port.hash = some port := by
  rw [State.expansionCalls_ok h, State.expand, expandWith_calls]
  cases port <;> simp [PortTransaction.port]

/-- A command makes a transaction on a port exactly when its checks pass and its rule uses that port. -/
theorem portCalls_any_port (i : Instr) (s : State) (port : Port) :
    (s.portCalls i).any (fun c => c.port == port) = true ↔ firstError i s = .none ∧ portOf i = some port := by
  by_cases he : firstError i s = .none
  · refine Iff.trans ?_ (and_iff_right he).symm
    cases i with
    | frand rd => simp [State.portCalls, PortTransaction.port, portOf]
    | xmd n => exact expansionCalls_any_port (checkExpansion_xmd_ok he) port
    | h2f rd rd2 => exact expansionCalls_any_port (checkExpansion_h2f_ok he) port
    | _ => simp [State.portCalls, portOf]
  · simp [portCalls_of_firstError_ne_none he, he]

/-- A word in flight waits on a port exactly when it is legal, its checks pass and its rule uses that port. -/
theorem State.waitsOn_iff (s : State) (w : Word) (port : Port) : s.waitsOn w port = true ↔
    ∃ i, decode w = .ok i ∧ firstError i s = .none ∧ portOf i = some port := by
  cases hw : decode w with
  | ok i => simp [State.waitsOn, State.wordCalls, hw, ← portCalls_any_port]
  | error e => simp [State.waitsOn, State.wordCalls, hw]

/-! ### What an expansion reads -/

/-- The domain tag is read from `DST[0:DSTLEN]` alone (R140). -/
theorem State.domainTag_congr {s s' : State} (hl : s'.dstLen = s.dstLen)
    (h : ∀ j, j < s.dstLen.toNat → s'.dst j = s.dst j) : s'.domainTag = s.domainTag := by
  rw [State.domainTag, State.domainTag, hl]
  exact List.map_congr_left fun j hj => h j (List.mem_range.mp hj)

/-- The message is read from `MSG[0:MSGLEN]` alone (R140). -/
theorem State.message_congr {s s' : State} (hl : s'.msgLen = s.msgLen)
    (h : ∀ j, j < s.msgLen.toNat → s'.msg j = s.msg j) : s'.message = s.message := by
  rw [State.message, State.message, hl]
  exact List.map_congr_left fun j hj => h j (List.mem_range.mp hj)

/-! ### The bytes of a field register -/

/-- Byte `i` of word `j` of a field register, from the most significant down, is its byte `4 * j + i` (R52, R54). -/
theorem extract_readSlice (r : FieldWord) (j : Fin 8) {i : Nat} (hi : i < 4) :
    (readSlice r j).extractLsb' (24 - 8 * i) 8 = BitVec.ofNat 8 (r.toNat / 256 ^ (31 - (4 * j.val + i))) := by
  have hpow : 256 ^ (31 - (4 * j.val + i)) = 2 ^ (224 - 32 * j.val) * 2 ^ (24 - 8 * i) := by
    have hexp : 8 * (31 - (4 * j.val + i)) = 224 - 32 * j.val + (24 - 8 * i) := by omega
    have h256 : 256 = 2 ^ 8 := rfl
    rw [← pow_add, ← hexp, pow_mul, h256]
  rw [← BitVec.toNat_inj, BitVec.extractLsb'_toNat, toNat_readSlice, BitVec.toNat_ofNat, Nat.shiftRight_eq_div_pow, hpow,
    ← Nat.div_div_eq_div_mul]
  interval_cases i <;> omega

theorem unpackWord_readSlice (r : FieldWord) (j : Fin 8) : unpackWord (readSlice r j) =
    (List.range 4).map fun i => BitVec.ofNat 8 (r.toNat / 256 ^ (31 - (4 * j.val + i))) :=
  List.map_congr_left (l := List.range 4) fun _ hi => extract_readSlice r j (List.mem_range.mp hi)

/-- Eight groups of four are the numbers below 32 in order. -/
theorem flatMap_groups_of_four {α : Type} (f : Nat → α) :
    ((List.finRange 8).flatMap fun j => (List.range 4).map fun i => f (4 * j.val + i)) = (List.range 32).map f := rfl

end Sys2Proof.Machine
end

section
/-! CERTIFICATES. The statements about what commands compute, read, write and send, and about bytes in order. -/

namespace Sys2Proof.Proofs

open Sys2Proof.Machine Sys2Proof.Safety

/-- Settles O14: MONTMUL multiplies by `R_INV`, which takes one factor `2^256` out of `R2_MOD_P` and is undone by one. -/
theorem montmulIntoAndOutOfMontgomeryForm : Obligations.MontmulIntoAndOutOfMontgomeryForm := by
  unfold Obligations.MontmulIntoAndOutOfMontgomeryForm
  refine ⟨fun rd ra rb s ha hb => ?_, fun rd ra rb s ha hb => ?_⟩
  · have hcan : Canonical (s.reg rb) := by rw [Canonical, hb]; decide
    have hr2 : Config.r2ModP * Config.rInv ≡ 2 ^ 256 [MOD Config.p] := by decide
    refine ⟨_, execMontmul_ok rd ha hcan, ?_⟩
    rw [(wroteField_setField s rd (mod_p_lt _)).value, hb, mul_assoc]
    exact hr2.mul_left _
  · have hcan : Canonical (s.reg rb) := by rw [Canonical, hb]; decide
    have hinv : Config.rInv * 2 ^ 256 ≡ 1 [MOD Config.p] := by decide
    refine ⟨_, execMontmul_ok rd ha hcan, ?_⟩
    rw [(wroteField_setField s rd (mod_p_lt _)).value, hb, mul_one, Nat.mod_mul_mod, mul_assoc]
    calc (s.reg ra).toNat * (Config.rInv * 2 ^ 256) % Config.p
        = (s.reg ra).toNat * 1 % Config.p := hinv.mul_left _
      _ = (s.reg ra).toNat := by rw [mul_one, Nat.mod_eq_of_lt ha]

/-- Settles O25: the blocks are 32 bytes each and are cut to `n` bytes in all. -/
theorem expandOutputLength : Obligations.ExpandOutputLength := by
  unfold Obligations.ExpandOutputLength
  exact fun H hH dst msg n => expandWith_out_length hH dst msg n

/-- Settles O30: a digest is four lanes of eight bytes. -/
theorem hashDigestHas32Bytes : Obligations.HashDigestHas32Bytes := by
  unfold Obligations.HashDigestHas32Bytes
  exact digests32_hash

/-- Settles O33: a rule writes its destinations and its bytes of OUT, and an error completion writes STATUS alone. -/
theorem commandWritesOnlyItsPlaces : Obligations.CommandWritesOnlyItsPlaces := by
  unfold Obligations.CommandWritesOnlyItsPlaces
  intro i s t h
  refine ⟨fun k hk => ?_, exec_sameControl h, fun a ha => ?_⟩
  · rcases exec_next_cases h with rfl | ⟨e, -, rfl⟩
    · exact computed_reg_of_not_mem hk s
    · rfl
  · rcases exec_next_cases h with rfl | ⟨e, -, rfl⟩
    · exact computed_byte ha s
    · rfl

/-- Settles O34: states that agree on the named bytes give the same expansion, or the same chunk. -/
theorem commandReadsOnlyItsBytes : Obligations.CommandReadsOnlyItsBytes := by
  unfold Obligations.CommandReadsOnlyItsBytes
  refine ⟨fun n rd rd2 s s' hd hm hdst hmsg hdl hml hn => ?_, fun rd len off s s' hl ho hout => ?_⟩
  · have hx : ∀ k, s'.expand k = s.expand k := fun k => by
      rw [State.expand, State.expand, State.domainTag_congr hd hdst, State.message_congr hm hmsg]
    have hdl' : s'.dstLen.toNat ≤ 255 := by rwa [hd]
    have hml' : s'.msgLen.toNat ≤ 4096 := by rwa [hm]
    refine ⟨⟨_, _, execXmd_ok (State.checkExpansion_of_le hdl hml hn),
      execXmd_ok (State.checkExpansion_of_le hdl' hml' hn), fun j hj => ?_⟩,
      ⟨_, _, exec_h2f_ok rd rd2 hdl hml, exec_h2f_ok rd rd2 hdl' hml', ?_, ?_⟩⟩
    · have hlen : j < (s.expand n.toNat).out.length := by rwa [State.expand_out_length]
      refine Option.some.inj ?_
      rw [hx]
      exact (State.writeOut_out _ hlen).trans (State.writeOut_out _ hlen).symm
    · simp only [State.completeOk_reg, State.setField_reg, hx, if_true]
    · simp only [State.completeOk_reg, State.setField_reg_self, hx]
  · have hc : s'.chunk off.toNat len.toNat = s.chunk off.toNat len.toNat := by
      rw [State.chunk_eq, State.chunk_eq]
      exact List.map_congr_left fun j hj => hout j (List.mem_range.mp hj)
    refine ⟨_, _, execB2f_ok rd hl ho, execB2f_ok rd hl ho, ?_⟩
    rw [State.completeOk_reg, State.completeOk_reg, State.setField_reg_self, State.setField_reg_self, hc]

/-- Settles O37: a rule whose checks pass logs its transactions; a command with an error has none to log. -/
theorem commandMakesItsPortCalls : Obligations.CommandMakesItsPortCalls := by
  unfold Obligations.CommandMakesItsPortCalls
  intro i s t h
  by_cases he : firstError i s = .none
  · obtain rfl := Host.Outcome.next.inj ((exec_of_firstError_none he).symm.trans h)
    exact ⟨computed_portLog he, fun hne => absurd rfl hne⟩
  · obtain rfl := Host.Outcome.next.inj ((exec_of_firstError_ne_none he).symm.trans h)
    rw [portCalls_of_firstError_ne_none he, List.append_nil]
    exact ⟨rfl, fun _ => ⟨rfl, rfl⟩⟩

/-- Settles O42: word by word, each four bytes of the register, and the eight words in order. -/
theorem fieldRegisterBytesAreBigEndian : Obligations.FieldRegisterBytesAreBigEndian := by
  unfold Obligations.FieldRegisterBytesAreBigEndian
  intro s k
  simp only [State.readWord_field, unpackWord_readSlice]
  exact flatMap_groups_of_four fun i => BitVec.ofNat 8 ((s.reg k).toNat / 256 ^ (31 - i))

end Sys2Proof.Proofs
end

section
/-! SUPPORT. The step by its turn with a collaborator that falls silent (spec/93_implementation_defined.md U6, U7), the end of a
command in flight, and the end of a host program's run (spec/70_reset_and_hazards.md R250, R252). -/

namespace Sys2Proof.Machine

open Sys2Proof.Safety

/-! ### A collaborator that falls silent -/

/-- The event hangs the command in flight if the command waits on that port, and says nothing otherwise. -/
theorem step_silent {s : State} {w : Word} {port : Port} {rest : List Event} (hi : s.inflight = some w)
    (hg : s.hung = none) (ha : s.agenda = .silent port :: rest) : step s =
      if s.waitsOn w port then .next { s with agenda := rest, hung := some port } else .next { s with agenda := rest } := by
  have ht : s.turn = if s.waitsOn w port then .hang port else .skip := by
    simp [State.turn_of_inflight hi hg, State.turnBusy, ha]
  split
  case isTrue hw =>
    rw [if_pos hw] at ht
    simp only [step, ht, State.dropEvent_of_agenda ha, State.hang]
  case isFalse hw =>
    rw [if_neg hw] at ht
    simp only [step, ht, State.dropEvent_of_agenda ha]

/-- A hung command that nothing more reaches is stuck (U6, U7). -/
theorem step_stuck {s : State} {w : Word} {port : Port} (hi : s.inflight = some w) (hg : s.hung = some port)
    (ha : s.agenda = []) : step s = .fault port.silentFault := by
  have ht : s.turn = .stuck port.silentFault := by simp [State.turn_of_hung hi hg, State.turnHung, ha]
  simp only [step, ht]

/-- A command in flight ends by its completion or by a reset, and by nothing else (R215, R242). -/
theorem turn_of_inflight_ends {s t : State} {w : Word} (hi : s.inflight = some w) (h : step s = .next t)
    (ht : t.inflight = none) : s.turn = .run w ∨ ∃ pulse, s.turn = .reset pulse := by
  have hne : s.inflight ≠ none := hi ▸ nofun
  rcases step_cases h with ⟨p, hu, -⟩ | ⟨p, -, rfl⟩ | ⟨w', hu, -⟩ | ⟨a, hu, -⟩ | ⟨a, -, rfl⟩ | ⟨a, hu, rfl⟩ |
    ⟨-, rfl⟩ | ⟨-, rfl⟩
  · exact .inr ⟨p, hu⟩
  · exact absurd ht hne
  · obtain rfl : w' = w := Option.some.inj ((State.turn_run hu).1.symm.trans hi)
    exact .inl hu
  · exact absurd (State.turn_release hu).1 hne
  · exact absurd ht hne
  · have hl := (State.turn_perform hu).resolve_left hne
    obtain ⟨_, _, _, _, hp, -, -⟩ := s.dropEvent.perform_not_interlocked hl
    rw [hp] at ht
    exact absurd ht hne
  · exact absurd ht hne
  · exact absurd ht hne

/-! ### A run that has ended -/

/-- With no access left to issue, an event that is used up leaves none. -/
theorem no_access_tail {l : List Event} (h : l.all (fun e => !e.isAccess) = true) :
    l.tail.all (fun e => !e.isAccess) = true := by
  rw [List.all_eq_true] at h ⊢
  exact fun e he => h e (List.mem_of_mem_tail he)

theorem not_runEnded_of_access {s : State} {a : Access} {rest : List Event} (ha : s.agenda = .access a :: rest) :
    ¬ RunEnded s := by
  intro hs
  have hall := hs.accesses
  rw [ha] at hall
  simp [Event.isAccess] at hall

/-- Once a run has ended, the next step is a reset, or uses up an event that says nothing, or does nothing. -/
theorem step_of_runEnded {s t : State} (hs : RunEnded s) (h : step s = .next t) :
    (∃ pulse, s.turn = .reset pulse ∧ t = s.dropEvent.takeReset pulse) ∨ t = s.dropEvent ∨ t = s := by
  have hi := hs.inflight
  have hh := hs.held
  rcases step_cases h with ⟨p, hu, ht⟩ | ⟨p, hu, -⟩ | ⟨w, hu, -⟩ | ⟨a, hu, -⟩ | ⟨a, hu, -⟩ | ⟨a, hu, -⟩ | ⟨-, ht⟩ |
    ⟨-, ht⟩
  · exact .inl ⟨p, hu, ht⟩
  · obtain ⟨hsome, -, -⟩ := State.says_of_turn hu
    simp [hi] at hsome
  · exact absurd (hi.symm.trans (State.turn_run hu).1) nofun
  · exact absurd (hh.symm.trans (State.turn_release hu).2) nofun
  · obtain ⟨-, -, hsome, -⟩ := State.says_of_turn hu
    simp [hi] at hsome
  · obtain ⟨-, -, rest, ha⟩ := State.says_of_turn hu
    exact absurd hs (not_runEnded_of_access ha)
  · exact .inr (.inl ht)
  · exact .inr (.inr ht)

/-! ### A run ends -/

/-- A bound on the steps until a run ends: four for each event, two for a held access (its release, and the completion of a
command it starts), and one for the completion of a command in flight. -/
def State.remaining (s : State) : Nat := 4 * s.agenda.length + 2 * s.held.isSome.toNat + s.inflight.isSome.toNat

theorem State.remaining_le (s : State) : s.remaining ≤ 4 * s.agenda.length + 3 := by
  have hh := s.held.isSome.toNat_le
  have hi := s.inflight.isSome.toNat_le
  rw [State.remaining]
  omega

/-- Every collaborator answers: no command hangs, and none is going to (R250). -/
structure Answered (s : State) : Prop where
  hung   : s.hung = none
  silent : ∀ port, Event.silent port ∉ s.agenda

/-- The events still to come after a step are among those before it. -/
theorem answered_of_suffix {s t : State} (hs : Answered s) (hg : t.hung = none) (ha : t.agenda <:+ s.agenda) :
    Answered t :=
  ⟨hg, fun port hp => hs.silent port (ha.subset hp)⟩

theorem State.dropCompletion_agenda_suffix (s : State) : s.dropCompletion.agenda <:+ s.agenda := by
  unfold State.dropCompletion
  split
  case h_1 rest ha => exact ha ▸ List.suffix_cons _ rest
  case h_2 => exact List.suffix_rfl

theorem State.perform_hung {s : State} (hg : s.hung = none) (a : Access) : (s.perform a).hung = none := by
  rcases s.perform_command a with ⟨-, -, h⟩ | ⟨w, h⟩
  · exact h.trans hg
  · rw [h]
    rfl

/-- An event still to come is worth four steps. -/
theorem State.remaining_of_agenda {s : State} {e : Event} {rest : List Event} (ha : s.agenda = e :: rest) :
    4 * rest.length + 4 + 2 * s.held.isSome.toNat + s.inflight.isSome.toNat = s.remaining := by
  rw [State.remaining, ha, List.length_cons, Nat.mul_add_one]

/-- What an access leaves to come: at most the completion of a command it starts. -/
theorem State.remaining_perform_le (s : State) (a : Access) :
    (s.perform a).remaining ≤ 4 * s.agenda.length + 2 * s.held.isSome.toNat + 1 := by
  obtain ⟨r, -, hheld, hag, -, -⟩ := s.perform_ports a
  have hbusy := (s.perform a).inflight.isSome.toNat_le
  rw [State.remaining, hheld, hag]
  omega

/-- As long as the run has not ended and every collaborator answers, each step brings the end nearer. -/
theorem step_nearer {s : State} (hs : Answered s) (hn : ¬ RunEnded s) :
    ∃ t, step s = .next t ∧ Answered t ∧ t.remaining < s.remaining := by
  cases hu : s.turn with
  | reset pulse =>
    obtain ⟨rest, ha⟩ := State.says_of_turn hu
    refine ⟨_, step_reset ha, answered_of_suffix hs rfl (ha ▸ List.suffix_cons _ rest), ?_⟩
    have hevent := State.remaining_of_agenda ha
    change 4 * rest.length < s.remaining
    omega
  | hang port =>
    obtain ⟨-, -, rest, ha⟩ := State.says_of_turn hu
    exact absurd (ha ▸ List.mem_cons_self) (hs.silent port)
  | stuck fault =>
    obtain ⟨-, hg⟩ := State.says_of_turn hu
    simp [hs.hung] at hg
  | run w =>
    obtain ⟨hi, hg⟩ := State.turn_run hu
    obtain ⟨t, ht⟩ := runCommand_next w s
    have hc := runCommand_sameControl ht
    have hsuffix : t.agenda <:+ s.agenda := hc.agenda ▸ s.dropCompletion_agenda_suffix
    have hheld : t.held = s.held := hc.held.trans s.dropCompletion_held
    refine ⟨t, (step_of_run hu).trans ht,
      answered_of_suffix hs ((hc.hung.trans s.dropCompletion_hung).trans hg) hsuffix, ?_⟩
    have hlen := hsuffix.length_le
    rw [State.remaining, State.remaining, hheld, hi, (runCommand_completed ht).inflight, Option.isSome_none,
      Option.isSome_some, Bool.toNat_false, Bool.toNat_true]
    omega
  | release a =>
    obtain ⟨-, hh⟩ := State.turn_release hu
    obtain ⟨r, -, -, hag, -, -⟩ := State.perform_ports { s with held := none } a
    refine ⟨s.release a, by simp only [step, hu],
      answered_of_suffix hs (State.perform_hung (s := { s with held := none }) hs.hung a) (hag ▸ List.suffix_rfl), ?_⟩
    calc (s.release a).remaining ≤ 4 * s.agenda.length + 2 * 0 + 1 := State.remaining_perform_le { s with held := none } a
      _ < 4 * s.agenda.length + 2 * 1 + s.inflight.isSome.toNat := by omega
      _ = s.remaining := by rw [State.remaining, hh, Option.isSome_some, Bool.toNat_true]
  | hold a =>
    obtain ⟨-, hh, -, rest, ha⟩ := State.says_of_turn hu
    refine ⟨s.dropEvent.hold a, by simp only [step, hu], answered_of_suffix hs hs.hung s.agenda.tail_suffix, ?_⟩
    rw [← State.remaining_of_agenda ha, State.remaining, State.hold_agenda, State.dropEvent_agenda, ha, List.tail_cons,
      State.hold_held, Option.isSome_some, Bool.toNat_true]
    change 4 * rest.length + 2 * 1 + s.inflight.isSome.toNat < _
    omega
  | perform a =>
    obtain ⟨-, hh, rest, ha⟩ := State.says_of_turn hu
    obtain ⟨r, -, -, hag, -, -⟩ := s.dropEvent.perform_ports a
    refine ⟨s.dropEvent.perform a, by simp only [step, hu],
      answered_of_suffix hs (State.perform_hung (s := s.dropEvent) hs.hung a) (hag ▸ s.agenda.tail_suffix), ?_⟩
    have hle := s.dropEvent.remaining_perform_le a
    rw [State.dropEvent_agenda, ha, List.tail_cons, State.dropEvent_held] at hle
    rw [← State.remaining_of_agenda ha]
    omega
  | skip =>
    obtain ⟨e, rest, ha, -⟩ := State.says_of_turn hu
    refine ⟨s.dropEvent, by simp only [step, hu], answered_of_suffix hs hs.hung s.agenda.tail_suffix, ?_⟩
    rw [← State.remaining_of_agenda ha, State.remaining, State.dropEvent_agenda, ha, List.tail_cons,
      State.dropEvent_held, State.dropEvent_inflight]
    omega
  | idle =>
    obtain ⟨hi, hh, ha⟩ := State.says_of_turn hu
    exact absurd ⟨hi, hh, by rw [ha]; rfl⟩ hn

theorem runEndsAt_zero {s : State} (hs : RunEnded s) : RunEndsAt s 0 s :=
  ⟨rfl, hs, fun _ _ hm => absurd hm (Nat.not_lt_zero _)⟩

/-- A run that has not ended ends one step later than the run from the next state. -/
theorem runEndsAt_succ {s u t : State} {n : Nat} (hn : ¬ RunEnded s) (h : step s = .next u) (ht : RunEndsAt u n t) :
    RunEndsAt s (n + 1) t where
  reached := (run_succ h n).trans ht.reached
  ended := ht.ended
  first
    | 0, _, _, hv => Host.Outcome.next.inj hv ▸ hn
    | m + 1, v, hm, hv => ht.first m v (Nat.lt_of_succ_lt_succ hm) ((run_succ h m).symm.trans hv)

/-- Every run whose collaborators answer ends, within the bound. -/
theorem run_ends : ∀ (k : Nat) (s : State), s.remaining ≤ k → Answered s → ∃ n t, n ≤ k ∧ RunEndsAt s n t := by
  intro k
  induction k with
  | zero =>
    intro s hk hs
    by_cases hend : RunEnded s
    · exact ⟨0, s, Nat.le_refl 0, runEndsAt_zero hend⟩
    · obtain ⟨u, -, -, hlt⟩ := step_nearer hs hend
      omega
  | succ k ih =>
    intro s hk hs
    by_cases hend : RunEnded s
    · exact ⟨0, s, Nat.zero_le _, runEndsAt_zero hend⟩
    · obtain ⟨u, hu, hau, hlt⟩ := step_nearer hs hend
      obtain ⟨n, t, hn, ht⟩ := ih u (by omega) hau
      exact ⟨n + 1, t, Nat.succ_le_succ hn, runEndsAt_succ hend hu ht⟩

/-- No end of a run comes before another, since an end is the first. -/
theorem runEndsAt_le {s t u : State} {n m : Nat} (ht : RunEndsAt s n t) (hu : RunEndsAt s m u) : n ≤ m :=
  Nat.le_of_not_lt fun hlt => ht.first m u hlt hu.reached hu.ended

end Sys2Proof.Machine
end

section
/-! CERTIFICATES. The statements about the order of responses, silent collaborators and the end of a run
(spec/20_memory.md section 4, spec/70_reset_and_hazards.md section 4, spec/93_implementation_defined.md). -/

namespace Sys2Proof.Proofs

open Sys2Proof.Machine Sys2Proof.Safety

/-- Settles O47: an access performed or released adds its own response, and no other turn adds one. -/
theorem responsesComeInOrder : Obligations.ResponsesComeInOrder := by
  unfold Obligations.ResponsesComeInOrder
  intro s t h
  refine ⟨fun a hu => ?_, fun a hu => ?_, fun a hu => ?_, fun hn => ?_⟩
  · obtain ⟨-, hh, rest, ha⟩ := State.says_of_turn hu
    obtain ⟨r, hb, hheld, hag, -, -⟩ := s.dropEvent.perform_ports a
    obtain rfl : s.dropEvent.perform a = t := by simpa only [step, hu, Host.Outcome.next.injEq] using h
    exact ⟨hh, by rw [hag, State.dropEvent_agenda, ha, List.tail_cons], hheld.trans hh, r, hb⟩
  · obtain ⟨-, hh⟩ := State.turn_release hu
    obtain ⟨r, hb, hheld, hag, -, -⟩ := State.perform_ports { s with held := none } a
    obtain rfl : s.release a = t := by simpa only [step, hu, Host.Outcome.next.injEq] using h
    exact ⟨hh, hheld, hag, r, hb⟩
  · obtain ⟨-, hh, -, rest, ha⟩ := State.says_of_turn hu
    obtain rfl : s.dropEvent.hold a = t := by simpa only [step, hu, Host.Outcome.next.injEq] using h
    exact ⟨hh, by rw [State.hold_agenda, State.dropEvent_agenda, ha, List.tail_cons], rfl, rfl⟩
  · rcases step_cases h with ⟨p, -, rfl⟩ | ⟨p, -, rfl⟩ | ⟨w, -, hr⟩ | ⟨a, hu, -⟩ | ⟨a, hu, -⟩ | ⟨a, hu, -⟩ |
      ⟨-, rfl⟩ | ⟨-, rfl⟩
    · exact ⟨rfl, .inr rfl⟩
    · exact ⟨rfl, .inl rfl⟩
    · have hc := runCommand_sameControl hr
      exact ⟨hc.busLog.trans s.dropCompletion_busLog, .inl (hc.held.trans s.dropCompletion_held)⟩
    · exact absurd hu (hn a).2.1
    · exact absurd hu (hn a).2.2
    · exact absurd hu (hn a).1
    · exact ⟨rfl, .inl rfl⟩
    · exact ⟨rfl, .inl rfl⟩

/-- Settles O48: what still comes after the end is no access, so a step only uses it up, unless it is a reset. -/
theorem endedRunKeepsObservation : Obligations.EndedRunKeepsObservation := by
  unfold Obligations.EndedRunKeepsObservation
  intro s t hs h
  rcases step_of_runEnded hs h with ⟨p, hu, rfl⟩ | rfl | rfl
  · exact ⟨⟨rfl, rfl, no_access_tail hs.accesses⟩, .inl ⟨p, hu⟩⟩
  · exact ⟨⟨hs.inflight, hs.held, no_access_tail hs.accesses⟩, .inr rfl⟩
  · exact ⟨hs, .inr rfl⟩

/-- Settles O56: the event hangs the command exactly when it waits on the port; a hung command is never the engine's turn, so
only a reset ends it. -/
theorem silentCollaboratorHangsItsCommand : Obligations.SilentCollaboratorHangsItsCommand := by
  unfold Obligations.SilentCollaboratorHangsItsCommand
  refine ⟨fun s w port rest hi hg ha => ?_, fun s w port hi hg => ?_⟩
  · rw [← s.waitsOn_iff w port, step_silent hi hg ha]
    exact ⟨fun hw => if_pos hw, fun hw => if_neg hw⟩
  · refine ⟨step_stuck hi hg, fun pulse rest ha => ⟨_, step_reset ha, rfl, rfl⟩, fun t h ht => ?_⟩
    refine (turn_of_inflight_ends hi h ht).resolve_left fun hu => ?_
    exact absurd ((State.turn_run hu).2.symm.trans hg) nofun

/-- Settles O57: each step brings the end nearer by the bound `State.remaining`; an end is the first, so there is one. -/
theorem runEndsExactlyOnce : Obligations.RunEndsExactlyOnce := by
  unfold Obligations.RunEndsExactlyOnce
  refine ⟨fun s hg ha => run_ends _ s s.remaining_le ⟨hg, ha⟩, fun s t u n m ht hu => ?_⟩
  obtain rfl : n = m := Nat.le_antisymm (runEndsAt_le ht hu) (runEndsAt_le hu ht)
  exact ⟨rfl, Host.Outcome.next.inj (ht.reached.symm.trans hu.reached)⟩

end Sys2Proof.Proofs
end
